-- ==== Sys2Proof/Word.lean ====
section
/-! DEFINITION. The word types of the block: limbs, host addresses, packed requests, command words. -/

namespace Sys2Proof

/-- One limb, an unsigned 64-bit word with no substructure (R5, R20); also the host data word. -/
abbrev Limb := BitVec 64

/-- A host address: 16 bits, counting limbs (R50). -/
abbrev HostAddr := BitVec 16

/-- A packed port request, format PORT, 81 bits (R71). -/
abbrev Request := BitVec 81

/-- A command word, format CMD, 64 bits (R72). -/
abbrev CommandWord := BitVec 64

end Sys2Proof
end

