-- ==== Sys2Proof/Config.lean ====
section
/-! DEFINITION. The build-time parameters `W` and `N` (R6, R7). -/

namespace Sys2Proof

/-- What one built block fixes: the widths, in limbs, of a multiply operand (`W`, R6) and of an adder
operand (`N`, R7). They are open parameters (92_eei_decisions.md P1, P2); no step changes them. -/
structure Config where
  W : Nat
  N : Nat
deriving DecidableEq, Repr

/-- The reference configuration `ABSI-EF-CORE(8, 128)` (R1, R6, R7). -/
def Config.reference : Config := ⟨8, 128⟩

end Sys2Proof
end

