-- ==== Sys2Proof/Syntax.lean ====
section
/-! DEFINITION. The instructions: one constructor for each row of the opcode map (R73). -/

namespace Sys2Proof

/-- The four rows of the opcode map (R73): two port transactions and two commands. -/
inductive Instr where
  /-- `WR addr, data`: host write of one limb (R90). -/
  | wr (addr : HostAddr) (data : Limb)
  /-- `RD addr`: host read of one limb (R91); the request's `wdata` is ignored and is no operand (R73). -/
  | rd (addr : HostAddr)
  /-- `MUL`: multiply `A` by `B` into `R` (R100); no operand (R72). -/
  | mul
  /-- `ADD`: add `Y` into `X` (R130); no operand (R72). -/
  | add
deriving DecidableEq, Repr

end Sys2Proof
end

