-- ==== Sys2Proof/WellFormed.lean ====
section
/-! DEFINITION. Well-formedness of configurations, raw words and instructions. -/

namespace Sys2Proof

/-- The bounds on the parameters, `1 <= W <= 2048` and `1 <= N <= 4096` (R9, R53). -/
abbrev Config.wf (cfg : Config) : Prop :=
  (1 ≤ cfg.W ∧ cfg.W ≤ 2048) ∧ 1 ≤ cfg.N ∧ cfg.N ≤ 4096

/-- The number is the bits of a port request: 81 bits, nothing above (R71, R77). -/
abbrev isPortWord (w : Nat) : Prop := w < 2 ^ 81

/-- The number is the bits of a command word: 64 bits, nothing above (R72, R77). -/
abbrev isCommandWord (w : Nat) : Prop := w < 2 ^ 64

/-- Every instruction is well formed: the operands are bit vectors of exactly their fields' widths, and "every
one of the `2^81` bit patterns is a well-formed request" (R71), whatever the address or the data. -/
def Instr.wf : Instr → Bool
  | .wr _ _ => true
  | .rd _ => true
  | .mul => true
  | .add => true

end Sys2Proof
end

