-- ==== Sys2Proof/Decode.lean ====
section
/-! DEFINITION. The decoder (R71 to R77), total and rejecting by name, and the encoder beside it. -/

namespace Sys2Proof

/-- An encoded word in one of the two formats (R70). -/
inductive Encoded where
  /-- Format PORT: one host transaction (R71). -/
  | port (req : Request)
  /-- Format CMD: the `wdata` of a `WR` to `CMD` (R72). -/
  | cmd (cw : CommandWord)
deriving DecidableEq, Repr

/-- The two commands a command word can select (R72). -/
inductive Command where
  | mul
  | add
deriving DecidableEq, Repr

/-- Why a word is no instruction. -/
inductive Reject where
  /-- A reserved command word (R74). -/
  | reservedCommand (cw : CommandWord)
  /-- A number with a bit above bit 80: no port request (R71). -/
  | notPortWord (w : Nat)
  /-- A number with a bit above bit 63: no command word (R72). -/
  | notCommandWord (w : Nat)
  /-- A length that neither format has (R77). -/
  | noSuchFormat (nbits : Nat)
deriving DecidableEq, Repr

/-- `we`, bit 80 of a request (R71). -/
def reqWe (req : Request) : BitVec 1 := req.extractLsb' 80 1

/-- `addr`, bits 79:64 of a request (R71). -/
def reqAddr (req : Request) : HostAddr := req.extractLsb' 64 16

/-- `wdata`, bits 63:0 of a request (R71). -/
def reqData (req : Request) : Limb := req.extractLsb' 0 64

/-- The request with the given fields, `{we, addr, wdata}` (R71). -/
def packRequest (we : BitVec 1) (addr : HostAddr) (wdata : Limb) : Request := we ++ addr ++ wdata

/-- Stage one of decoding: "any 81-bit request is `WR` if bit 80 is 1 and `RD` if it is 0" (R75). -/
def decodeRequest (req : Request) : Instr :=
  if reqWe req = 1#1 then .wr (reqAddr req) (reqData req) else .rd (reqAddr req)

/-- Stage two of decoding: the command a `WR` to `CMD` carries; `none` is a reserved word (R74, R75). -/
def decodeCommand (cw : CommandWord) : Option Command :=
  if cw = 0x0000000000000001#64 then some .mul
  else if cw = 0x0000000000000002#64 then some .add
  else none

/-- The instruction of the opcode map that a command is (R73). -/
def Command.instr : Command → Instr
  | .mul => .mul
  | .add => .add

/-- The decoder over both formats: total, a reserved command word rejected by name (R74, R75). -/
def decode : Encoded → Except Reject Instr
  | .port req => .ok (decodeRequest req)
  | .cmd cw =>
    match decodeCommand cw with
    | some c => .ok c.instr
    | none => .error (.reservedCommand cw)

/-- The decoder over any number of bits: 81 bits (88 in whole bytes) are a request, 64 a command word (R77). -/
def decodeBits (nbits w : Nat) : Except Reject Instr :=
  if nbits = 81 ∨ nbits = 88 then
    if isPortWord w then decode (.port (BitVec.ofNat 81 w)) else .error (.notPortWord w)
  else if nbits = 64 then
    if isCommandWord w then decode (.cmd (BitVec.ofNat 64 w)) else .error (.notCommandWord w)
  else .error (.noSuchFormat nbits)

/-- The instruction the decoder reads from the bits `w` of a row of the opcode table (R73). -/
def decodeTableWord (nbits w : Nat) : Option Instr :=
  match decodeBits nbits w with
  | .ok i => some i
  | .error _ => none

/-- The encoder: the word of an instruction in its row's format (R71, R72, R73). An `RD` is sent with `wdata`
zero, as R80 packs it; a decoder ignores those bits (R71). -/
def encode : Instr → Encoded
  | .wr addr data => .port (packRequest 1#1 addr data)
  | .rd addr => .port (packRequest 0#1 addr 0#64)
  | .mul => .cmd 0x0000000000000001#64
  | .add => .cmd 0x0000000000000002#64

/-- The port request that carries an encoded word: a command word travels as the `wdata` of a `WR` to `0x0000`
(R72). -/
def Encoded.request : Encoded → Request
  | .port req => req
  | .cmd cw => packRequest 1#1 0x0000#16 cw

end Sys2Proof
end

