-- ==== Sys2Proof/Machine/State.lean ====
section
/-! DEFINITION. The state of the block, the reasons a step can stop, and the state after reset. -/

namespace Sys2Proof.Machine

/-- The five limb buffers (R21). -/
inductive Buf where
  | A | B | R | X | Y
deriving DecidableEq, Repr

/-- The sequencer's phases (R26). -/
inductive Phase where
  /-- `IDLE`: no command is running, the port is open. -/
  | idle
  /-- `M_ZERO` (R103). -/
  | mZero
  /-- `M_OUTER` (R105, R106, R107). -/
  | mOuter
  /-- `M_INNER` (R108). -/
  | mInner
  /-- `M_CARRY` (R110). -/
  | mCarry
  /-- `A_STEP` (R132). -/
  | aStep
deriving DecidableEq, Repr

/-- The causes of an interface error that can be recorded (R152). -/
inductive ErrorCause where
  /-- Cause 1, reserved command. -/
  | reservedCommand
  /-- Cause 2, unmapped address. -/
  | unmapped
  /-- Cause 3, write to read-only. -/
  | readOnly
deriving DecidableEq, Repr

/-- One thing the host does (R13, R92, R170). -/
inductive HostEvent where
  /-- A port transaction, as its packed request (R71). -/
  | request (req : Request)
  /-- The reset event (R170). -/
  | reset
  /-- A `WR` of `cw` to `CMD` whose command is cut short by reset after `n` micro-steps (R170: "also in the
  middle of a command"); with `n` past the command's end, reset right after it. -/
  | resetDuring (cw : CommandWord) (n : Nat)
deriving DecidableEq, Repr

/-- The whole state (10_state.md): five limb buffers (R21), seven sequencer registers (R26), one status register
of two fields (R29); beside them the configuration, carried so that the one model serves every `W` and `N` (R6, R7),
and the host's side of the port, the script still to be issued and the answers got so far (R13, R179). -/
structure State where
  /-- The built-in widths; configuration, changed by no step (R35). -/
  cfg : Config
  /-- First multiply operand, `W` limbs, limb 0 least significant. -/
  A : List Limb
  /-- Second multiply operand, `W` limbs. -/
  B : List Limb
  /-- Multiply result, `2W` limbs. -/
  R : List Limb
  /-- Adder augend and sum, `N` limbs. -/
  X : List Limb
  /-- Adder addend, `N` limbs. -/
  Y : List Limb
  /-- Sequencer phase. -/
  ph : Phase
  /-- Multiplier outer index, `0 .. W`. -/
  i : Nat
  /-- Multiplier inner index, `0 .. W`. -/
  j : Nat
  /-- The latched operand limb `A[i]`. -/
  a : Limb
  /-- The multiplier's running carry. -/
  c : Limb
  /-- Adder index, `0 .. N`. -/
  k : Nat
  /-- The adder's carry bit. -/
  cy : BitVec 1
  /-- `STATUS.ERR`, bit 0 (R29). -/
  err : BitVec 1
  /-- `STATUS.CAUSE`, bits 3:1 (R29). -/
  cause : BitVec 3
  /-- The model's own field: what the host has still to do, next event first (R179). -/
  script : List HostEvent
  /-- The model's own field: the `rdata` values the `RD` transactions returned, oldest first (R71, R179). -/
  rdata : List Limb
deriving DecidableEq, Repr

/-- Reasons the block stops with a fault: there are none. "The block raises no exception and takes no trap,
ever" (R150); an interface error is recorded in `STATUS` and the block goes on (R151). -/
inductive Fault where
deriving DecidableEq, Repr

/-- Reasons the model gives no meaning. -/
inductive Refusal where
  /-- An instruction without a meaning in this model, by its mnemonic; no arm of `exec` raises it. Safe. -/
  | notModelled (mnemonic : String)
  /-- Raised by every port transaction and by a resumed command in a state whose configuration breaks the bounds
  of R9 ("widths outside are refused", D14). Safe: no such block exists. -/
  | widthOutOfBounds
  /-- Raised by every port transaction and by a resumed command in a state where a buffer's length is not the
  configuration's (93_implementation_defined.md U2: refuse). Safe: no such state of a block exists. -/
  | widthMismatch
  /-- Raised by an instruction executed while a command is running: "the port is closed until the block is idle"
  and there is no move for it (R59, R92). Safe; `step` never raises it, it lets the command run on. -/
  | portClosed
deriving DecidableEq, Repr

/-- The lengths of the five buffers are those of the configuration (R21): the canonical form of the block's storage.
A limb is in exactly one list at one place, so equal contents are equal lists. -/
abbrev Memory.wf (s : State) : Prop :=
  s.A.length = s.cfg.W ∧ s.B.length = s.cfg.W ∧ s.R.length = 2 * s.cfg.W ∧
    s.X.length = s.cfg.N ∧ s.Y.length = s.cfg.N

/-- The reset state of the block built with `cfg` (R34), with nothing scripted and nothing read. -/
def State.resetOf (cfg : Config) : State where
  cfg := cfg
  A := List.replicate cfg.W 0#64
  B := List.replicate cfg.W 0#64
  R := List.replicate (2 * cfg.W) 0#64
  X := List.replicate cfg.N 0#64
  Y := List.replicate cfg.N 0#64
  ph := .idle
  i := 0
  j := 0
  a := 0#64
  c := 0#64
  k := 0
  cy := 0#1
  err := 0#1
  cause := 0#3
  script := []
  rdata := []

/-- The state right after reset, in the reference configuration (R34, R6, R7). -/
def State.reset : State := State.resetOf Config.reference

end Sys2Proof.Machine
end

