-- ==== Sys2Proof/Machine/Operands.lean ====
section
/-! DEFINITION. Values of buffers (R11), limbs of a buffer (R12), and the host address map (R51 to R54). -/

namespace Sys2Proof.Machine

/-- `val(d)`, the number a buffer holds, limb 0 least significant (R11, R55). -/
def val : List Limb → Nat
  | [] => 0
  | d :: ds => d.toNat + 2 ^ 64 * val ds

/-- `limbs_n(v)`, the buffer of `n` limbs that holds `v` (R11, defined for `v < 2^(64n)`). DESIGN CHOICE (log entry 18):
for a larger `v` it is the buffer of the low `n` limbs of `v`, that is of `v mod 2^(64n)`. -/
def limbs : Nat → Nat → List Limb
  | 0, _ => []
  | n + 1, v => BitVec.ofNat 64 v :: limbs n (v / 2 ^ 64)

/-- Read one limb of a buffer (R12). The index is inside the buffer in every use (R58); the 0 beyond it is never
read in a state that `exec` and `step` admit. -/
def readLimb (d : List Limb) (t : Nat) : Limb := d.getD t 0#64

/-- `region = addr[15:12]` (R51). -/
def region (addr : HostAddr) : BitVec 4 := addr.extractLsb' 12 4

/-- `index = addr[11:0]` (R51). -/
def index (addr : HostAddr) : BitVec 12 := addr.extractLsb' 0 12

/-- What a mapped host address names (R52). -/
inductive Location where
  | cmd
  | status
  | cfgW
  | cfgN
  /-- Limb `t` of buffer `b`. -/
  | limb (b : Buf) (t : Nat)
deriving DecidableEq, Repr

/-- The length of a buffer (R21). -/
def bufLen (cfg : Config) : Buf → Nat
  | .A => cfg.W
  | .B => cfg.W
  | .R => 2 * cfg.W
  | .X => cfg.N
  | .Y => cfg.N

/-- The region of a buffer's window (R52). -/
def bufRegion : Buf → BitVec 4
  | .A => 0x1#4
  | .B => 0x2#4
  | .R => 0x3#4
  | .X => 0x4#4
  | .Y => 0x5#4

/-- The limb `t` of a buffer's window, `none` at or past the buffer's length (R52, R53). -/
def windowLimb (cfg : Config) (b : Buf) (t : Nat) : Option Location :=
  if t < bufLen cfg b then some (.limb b t) else none

/-- The region 0 locations (R28, R52). -/
def controlLocation (t : Nat) : Option Location :=
  if t = 0 then some .cmd
  else if t = 1 then some .status
  else if t = 2 then some .cfgW
  else if t = 3 then some .cfgN
  else none

/-- The address map (R52): what an address names, `none` when it is unmapped (R54). -/
def locate (cfg : Config) (addr : HostAddr) : Option Location :=
  let t := (index addr).toNat
  if region addr = 0x0#4 then controlLocation t
  else if region addr = 0x1#4 then windowLimb cfg .A t
  else if region addr = 0x2#4 then windowLimb cfg .B t
  else if region addr = 0x3#4 then windowLimb cfg .R t
  else if region addr = 0x4#4 then windowLimb cfg .X t
  else if region addr = 0x5#4 then windowLimb cfg .Y t
  else none

/-- The host address of limb `t` of a buffer, the assembler's symbol `b[t]` (R78), for `t` at most 4095.
DESIGN CHOICE (log entry 13): of a larger `t` the low 12 bits are taken. -/
def limbAddr (b : Buf) (t : Nat) : HostAddr := bufRegion b ++ BitVec.ofNat 12 t

end Sys2Proof.Machine
end

