-- ==== Sys2Proof/Machine/Flags.lean ====
section
/-! DEFINITION. There are no flags (R31): the carries of the two engines and the `STATUS` word. -/

namespace Sys2Proof.Machine

/-- `mac(a, b, r, c) = a * b + r + c`, computed exactly as a natural number and held in 128 bits (R104). -/
def mac (a b r c : Limb) : BitVec 128 :=
  BitVec.ofNat 128 (a.toNat * b.toNat + r.toNat + c.toNat)

/-- `lo(t) = t[63:0]` (R104). -/
def lo (t : BitVec 128) : Limb := t.extractLsb' 0 64

/-- `hi(t) = t[127:64]` (R104). -/
def hi (t : BitVec 128) : Limb := t.extractLsb' 64 64

/-- `s = X[k] + Y[k] + cy`, exact in 65 bits (R132, R133). -/
def addWide (x y : Limb) (cy : BitVec 1) : BitVec 65 :=
  BitVec.ofNat 65 (x.toNat + y.toNat + cy.toNat)

/-- `s[63:0]`, the limb of the sum (R132). -/
def sumLimb (s : BitVec 65) : Limb := s.extractLsb' 0 64

/-- `s[64]`, the carry out (R132). -/
def carryOut (s : BitVec 65) : BitVec 1 := s.extractLsb' 64 1

/-- The other way to find the carry, two additions each checked for wraparound (R133): the limb and the carry. -/
def addTwoCheck (x y : Limb) (cy : BitVec 1) : Limb × BitVec 1 :=
  let s1 := x + y
  let c1 : BitVec 1 := if s1.toNat < x.toNat then 1#1 else 0#1
  let s2 := s1 + cy.setWidth 64
  let c2 : BitVec 1 := if s2.toNat < s1.toNat then 1#1 else 0#1
  (s2, c1 ||| c2)

/-- The code of a cause in `STATUS.CAUSE` (R152). -/
def ErrorCause.code : ErrorCause → BitVec 3
  | .reservedCommand => 1#3
  | .unmapped => 2#3
  | .readOnly => 3#3

/-- What a read of `STATUS` returns, `zext_64({CAUSE, ERR})` (R29). -/
def statusWord (s : State) : Limb := (s.cause ++ s.err).setWidth 64

end Sys2Proof.Machine
end

