-- ==== Sys2Proof/Machine/Ops.lean ====
section
/-! DEFINITION. Shared operations: buffer access, `flag_error`, reset, the port's guard, `MemRead` and `MemWrite`. -/

namespace Sys2Proof.Machine

/-- The contents of a buffer (R21). -/
def State.buf (s : State) : Buf → List Limb
  | .A => s.A
  | .B => s.B
  | .R => s.R
  | .X => s.X
  | .Y => s.Y

/-- Write one limb of one buffer; nothing else changes (R12, R57). -/
def State.setLimb (s : State) (b : Buf) (t : Nat) (v : Limb) : State :=
  match b with
  | .A => { s with A := s.A.set t v }
  | .B => { s with B := s.B.set t v }
  | .R => { s with R := s.R.set t v }
  | .X => { s with X := s.X.set t v }
  | .Y => { s with Y := s.Y.set t v }

/-- `flag_error(cause)`, the block's only stand-in for an exception (R12, R151): the first error since reset is
recorded, a later one is absorbed. Nothing is saved and control goes nowhere (R154), and there is no return from it:
only reset clears it (R155). -/
def flagError (e : ErrorCause) (s : State) : State :=
  if s.cause = 0#3 then { s with cause := e.code, err := 1#1 } else s

/-- The reset event (R170): every piece of the block's state takes its reset value. The widths stay, and so does
what is the host's: its script and the answers it got. -/
def resetEvent (s : State) : State :=
  { State.resetOf s.cfg with script := s.script, rdata := s.rdata }

/-- What every port transaction needs: a block (R9, R21) whose port is open (R59). -/
def atPort (s : State) (act : State → State) : Host.Outcome State Fault Refusal :=
  if ¬ s.cfg.wf then .refused .widthOutOfBounds
  else if ¬ Memory.wf s then .refused .widthMismatch
  else if s.ph ≠ .idle then .refused .portClosed
  else .next (act s)

/-- The limb a mapped location returns to a read (R52, R91). -/
def locationValue (s : State) : Location → Limb
  | .cmd => 0x0000000000000000#64
  | .status => statusWord s
  | .cfgW => BitVec.ofNat 64 s.cfg.W
  | .cfgN => BitVec.ofNat 64 s.cfg.N
  | .limb b t => readLimb (s.buf b) t

/-- The value `MemRead(addr, 1)` returns: the location's, and zero from an unmapped address (R54, R91). -/
def memRead (s : State) (addr : HostAddr) : Limb :=
  match locate s.cfg addr with
  | some l => locationValue s l
  | none => 0x0000000000000000#64

end Sys2Proof.Machine
end

