-- ==== Sys2Proof/Machine/Add.lean ====
section
/-! DEFINITION. The carry-propagating adder's micro-steps (R131, R132). -/

namespace Sys2Proof.Machine

/-- Start of `ADD` (R131). -/
def startAdd (s : State) : State := { s with k := 0, cy := 0#1, ph := .aStep }

/-- Phase A_STEP, one limb of the sum (R132): `X[k]` and `Y[k]` are read before `X[k]` is written (R136), and the test
is on the value `k` had when the step began. -/
def addStep (s : State) : State :=
  let sum := addWide (readLimb s.X s.k) (readLimb s.Y s.k) s.cy
  { s with
    X := s.X.set s.k (sumLimb sum)
    cy := carryOut sum
    k := s.k + 1
    ph := if s.k + 1 = s.cfg.N then .idle else .aStep }

/-- The number of A_STEP micro-steps of an `ADD` (R135). -/
def addStepCount (N : Nat) : Nat := N

end Sys2Proof.Machine
end

