-- ==== Sys2Proof/Machine/Multiply.lean ====
section
/-! DEFINITION. The multiply-accumulate engine's micro-steps (R102 to R110). -/

namespace Sys2Proof.Machine

/-- Start of `MUL` (R102). -/
def startMul (s : State) : State := { s with ph := .mZero }

/-- Phase M_ZERO (R103). -/
def mulZero (s : State) : State :=
  { s with R := List.replicate (2 * s.cfg.W) 0#64, i := 0, ph := .mOuter }

/-- Phase M_OUTER: the zero skip (R106), the start of an outer step (R107), the end of the loop (R105). The loop is
"while i < W" (R109). -/
def mulOuter (s : State) : State :=
  if s.i < s.cfg.W then
    if readLimb s.A s.i = 0#64 then
      { s with a := readLimb s.A s.i, i := s.i + 1 }
    else
      { s with a := readLimb s.A s.i, c := 0#64, j := 0, ph := .mInner }
  else
    { s with ph := .idle }

/-- Phase M_INNER, one MAC step (R108): all reads before all writes, and the test on the value `j` had when the step
began (90_conflicts.md C11). -/
def mulInner (s : State) : State :=
  let t := mac s.a (readLimb s.B s.j) (readLimb s.R (s.i + s.j)) s.c
  { s with
    R := s.R.set (s.i + s.j) (lo t)
    c := hi t
    j := s.j + 1
    ph := if s.j + 1 = s.cfg.W then .mCarry else .mInner }

/-- Phase M_CARRY: a store, not an add (R110). -/
def mulCarry (s : State) : State :=
  { s with R := s.R.set (s.i + s.cfg.W) s.c, i := s.i + 1, ph := .mOuter }

/-- Phase M_OUTER of the multiplier that R114 compares with: the outer step runs for a zero limb too. No instruction
uses it. -/
def mulOuterNoSkip (s : State) : State :=
  if s.i < s.cfg.W then
    { s with a := readLimb s.A s.i, c := 0#64, j := 0, ph := .mInner }
  else
    { s with ph := .idle }

/-- The number of non-zero limbs of a buffer, `z` of R115. -/
def nonZeroLimbs (d : List Limb) : Nat := d.countP (· ≠ 0#64)

/-- The largest number of micro-steps a `MUL` takes, `W^2 + 2W + 2` (R115). -/
def mulStepBound (W : Nat) : Nat := W ^ 2 + 2 * W + 2

end Sys2Proof.Machine
end

