-- ==== Sys2Proof/Machine/Sequencer.lean ====
section
/-! DEFINITION. The sequencer: one micro-step by phase, runs of micro-steps, and the two commands run to `IDLE`. -/

namespace Sys2Proof.Machine

/-- One micro-step, chosen by `ph` (41_multiply.md section 2, 42_add.md section 2); an idle block does nothing. -/
def microStep (s : State) : State :=
  match s.ph with
  | .idle => s
  | .mZero => mulZero s
  | .mOuter => mulOuter s
  | .mInner => mulInner s
  | .mCarry => mulCarry s
  | .aStep => addStep s

/-- `n` micro-steps. -/
def microSteps : Nat → State → State
  | 0, s => s
  | n + 1, s => microSteps n (microStep s)

/-- One micro-step of the multiplier without the zero skip (R114). -/
def microStepNoSkip (s : State) : State :=
  match s.ph with
  | .mOuter => mulOuterNoSkip s
  | _ => microStep s

/-- `n` micro-steps of the multiplier without the zero skip. -/
def microStepsNoSkip : Nat → State → State
  | 0, s => s
  | n + 1, s => microStepsNoSkip n (microStepNoSkip s)

/-- Micro-steps until `ph = IDLE`, at most `n` of them. -/
def runToIdle : Nat → State → State
  | 0, s => s
  | n + 1, s => if s.ph = .idle then s else runToIdle n (microStep s)

/-- "run MUL": the start step and every micro-step to `ph = IDLE` (R90, R109). -/
def runMul (s : State) : State := runToIdle (mulStepBound s.cfg.W) (startMul s)

/-- "run ADD": the start step and every micro-step to `ph = IDLE` (R90, R135). -/
def runAdd (s : State) : State := runToIdle (addStepCount s.cfg.N) (startAdd s)

/-- The start step of a command (R102, R131). -/
def startCommand : Command → State → State
  | .mul => startMul
  | .add => startAdd

end Sys2Proof.Machine
end

