-- ==== Sys2Proof/Machine/Commands.lean ====
section
/-! DEFINITION. The meanings of the two commands, `MUL` (R100) and `ADD` (R130). -/

namespace Sys2Proof.Machine

/-- `MUL` (R100): the whole run of the multiplier, inside one transaction (R59). -/
def execMul (s : State) : Host.Outcome State Fault Refusal := atPort s runMul

/-- `ADD` (R130): the whole run of the adder, inside one transaction (R59). -/
def execAdd (s : State) : Host.Outcome State Fault Refusal := atPort s runAdd

end Sys2Proof.Machine
end

