-- ==== Sys2Proof/Machine/HostPort.lean ====
section
/-! DEFINITION. The meanings of the port transactions, `WR` (R90) and `RD` (R91). -/

namespace Sys2Proof.Machine

/-- A `WR` of `data` to `CMD`: the command it carries is run, a reserved word records cause 1 (R32, R74, R90). -/
def writeCmd (data : Limb) (s : State) : State :=
  match decodeCommand data with
  | some .mul => runMul s
  | some .add => runAdd s
  | none => flagError .reservedCommand s

/-- `MemWrite(addr, 1, data)` (R90). -/
def memWrite (addr : HostAddr) (data : Limb) (s : State) : State :=
  match locate s.cfg addr with
  | some .cmd => writeCmd data s
  | some .status => flagError .readOnly s
  | some .cfgW => flagError .readOnly s
  | some .cfgN => flagError .readOnly s
  | some (.limb .R _) => flagError .readOnly s
  | some (.limb .A t) => s.setLimb .A t data
  | some (.limb .B t) => s.setLimb .B t data
  | some (.limb .X t) => s.setLimb .X t data
  | some (.limb .Y t) => s.setLimb .Y t data
  | none => flagError .unmapped s

/-- The one side effect a read can have: cause 2 for an unmapped address (R54, R57, R91). -/
def readEffect (addr : HostAddr) (s : State) : State :=
  match locate s.cfg addr with
  | some _ => s
  | none => flagError .unmapped s

/-- `MemRead(addr, 1) -> rdata`, the answer handed to the host (R71, R91). -/
def answerRead (addr : HostAddr) (s : State) : State :=
  { readEffect addr s with rdata := s.rdata ++ [memRead s addr] }

/-- `WR addr, data` (R90). -/
def execWr (addr : HostAddr) (data : Limb) (s : State) : Host.Outcome State Fault Refusal :=
  atPort s (memWrite addr data)

/-- `RD addr` (R91). -/
def execRd (addr : HostAddr) (s : State) : Host.Outcome State Fault Refusal :=
  atPort s (answerRead addr)

end Sys2Proof.Machine
end

