-- ==== Sys2Proof/Machine/Step.lean ====
section
/-! DEFINITION. One step: the next thing the host does, with everything it causes (R59). -/

namespace Sys2Proof.Machine

/-- One micro-step of a command that is running; the port is closed meanwhile (R59). Between transactions no command is
running, so a run from reset never comes here. -/
def resume (s : State) : Host.Outcome State Fault Refusal :=
  if ¬ s.cfg.wf then .refused .widthOutOfBounds
  else if ¬ Memory.wf s then .refused .widthMismatch
  else .next (microStep s)

/-- The state a command word leaves when reset cuts its command short after `n` micro-steps, before that reset
(R102, R131, R74). -/
def cutCommand (cw : CommandWord) (n : Nat) (s : State) : State :=
  match decodeCommand cw with
  | some c => microSteps n (startCommand c s)
  | none => flagError .reservedCommand s

/-- What an idle block does: with nothing scripted it stays as it is (R159), a request is decoded and executed
(R75), reset resets (R170), before or during a command. DESIGN CHOICE (log entries 1 and 5): the bounds of R9 and the
lengths of R21 are asked of requests only (`atPort`) and of a running command (`resume`); outside them an idle step, a
reset and a command cut by reset still answer a next state, though no such block exists (D14: "widths outside are
refused"). -/
def serve (s : State) : Host.Outcome State Fault Refusal :=
  match s.script with
  | [] => .next s
  | .request req :: rest => exec (decodeRequest req) { s with script := rest }
  | .reset :: rest => .next (resetEvent { s with script := rest })
  | .resetDuring cw n :: rest => .next (resetEvent (cutCommand cw n { s with script := rest }))

/-- One step. Reset takes effect at any moment (R170); a running command otherwise runs on; an idle block serves the
host's next event, to its end (R59). DESIGN CHOICE (log entries 1 and 5): the reset here asks nothing of the widths or
the buffers' lengths, as in `serve`. -/
def step (s : State) : Host.Outcome State Fault Refusal :=
  match s.script with
  | .reset :: rest => .next (resetEvent { s with script := rest })
  | _ => if s.ph = .idle then serve s else resume s

/-- The state in which the host's next event is the request that carries the bits `w`: 64 bits are a command word, sent
as the `wdata` of a `WR` to `CMD` (R72), otherwise they are the request itself (R71). The port is open. -/
def State.withFetchWord (s : State) (nbits w : Nat) : State :=
  let req : Request :=
    if nbits = 64 then (Encoded.cmd (BitVec.ofNat 64 w)).request else BitVec.ofNat 81 w
  { s with ph := .idle, script := .request req :: s.script }

end Sys2Proof.Machine
end

