-- ==== Sys2Proof/Machine/Script.lean ====
section
/-! DEFINITION. Host scripts: the assembler's statements, their well-formedness, their expansion to port requests
(R78, R79), and the reading of a script's text. -/

namespace Sys2Proof.Machine

/-- The symbols an address may be written with (R78). -/
inductive Symbol where
  | cmd
  | status
  | cfgW
  | cfgN
  /-- `b[t]`, with `t` a decimal number from 0 to 4095. -/
  | limb (b : Buf) (t : Nat)
deriving DecidableEq, Repr

/-- `<addr>`: a number or a symbol (R78). -/
inductive AddrOperand where
  | number (n : Nat)
  | symbol (y : Symbol)
deriving DecidableEq, Repr

/-- The two real statements and the five pseudo-instructions (R78, R79). -/
inductive Statement where
  | wr (addr : AddrOperand) (data : Nat)
  | rd (addr : AddrOperand)
  | mul
  | add
  | fill (b : Buf) (vs : List Nat)
  | dump (b : Buf)
  | reset
deriving DecidableEq, Repr

/-- An address operand is a 16-bit number, or a symbol whose index is at most 4095 (R78). -/
abbrev AddrOperand.wf : AddrOperand → Bool
  | .number n => n < 2 ^ 16
  | .symbol (.limb _ t) => t ≤ 4095
  | .symbol _ => true

/-- Data are 64-bit numbers (R78); a `FILL` names `A`, `B`, `X` or `Y` (R79) and reaches no index above 4095. -/
abbrev Statement.wf : Statement → Bool
  | .wr addr data => addr.wf && data < 2 ^ 64
  | .rd addr => addr.wf
  | .fill b vs => b ≠ .R && vs.length ≤ 4096 && vs.all (· < 2 ^ 64)
  | .mul => true
  | .add => true
  | .dump _ => true
  | .reset => true

/-- The address a symbol stands for (R78); `t` is not checked against `W` or `N`. -/
def Symbol.addr : Symbol → HostAddr
  | .cmd => 0x0000#16
  | .status => 0x0001#16
  | .cfgW => 0x0002#16
  | .cfgN => 0x0003#16
  | .limb b t => limbAddr b t

/-- The address an operand stands for (R78). -/
def AddrOperand.addr : AddrOperand → HostAddr
  | .number n => BitVec.ofNat 16 n
  | .symbol y => y.addr

/-- The request of a `WR` statement (R78). -/
def writeEvent (addr : HostAddr) (data : Limb) : HostEvent := .request (packRequest 1#1 addr data)

/-- The request of an `RD` statement, with `wdata` zero (R78, R80). -/
def readEvent (addr : HostAddr) : HostEvent := .request (packRequest 0#1 addr 0#64)

/-- The writes of `FILL b, vs`, from index `t` on, index 0 first (R79). -/
def fillFrom (b : Buf) : Nat → List Nat → List HostEvent
  | _, [] => []
  | t, v :: vs => writeEvent (limbAddr b t) (BitVec.ofNat 64 v) :: fillFrom b (t + 1) vs

/-- The reads of the `n` limbs of a buffer from index `t` on (R79). -/
def dumpFrom (b : Buf) : Nat → Nat → List HostEvent
  | _, 0 => []
  | t, n + 1 => readEvent (limbAddr b t) :: dumpFrom b (t + 1) n

/-- What a statement expands to (R78, R79). DESIGN CHOICE (log entry 13): of a number too wide for its place, in a
statement that is not well formed, the low bits are taken. -/
def assemble (cfg : Config) : Statement → List HostEvent
  | .wr addr data => [writeEvent addr.addr (BitVec.ofNat 64 data)]
  | .rd addr => [readEvent addr.addr]
  | .mul => [.request (encode .mul).request]
  | .add => [.request (encode .add).request]
  | .fill b vs => fillFrom b 0 vs
  | .dump b => dumpFrom b 0 (bufLen cfg b)
  | .reset => [.reset]

/-- The host events of a script (R78: a straight list, no labels and no control flow). -/
def assembleScript (cfg : Config) : List Statement → List HostEvent
  | [] => []
  | st :: rest => assemble cfg st ++ assembleScript cfg rest

/-- A token of a script line. -/
inductive Token where
  | word (cs : List Char)
  | comma
  | lbracket
  | rbracket
deriving DecidableEq, Repr

/-- The word read so far, kept in reverse, as a token. -/
def flushWord : List Char → List Token
  | [] => []
  | c :: cs => [.word (c :: cs).reverse]

/-- The tokens of one line; `;` starts a comment to its end (R78). -/
def lexLine : List Char → List Char → List Token
  | cur, [] => flushWord cur
  | cur, ch :: rest =>
    if ch = ';' then flushWord cur
    else if ch = ' ' ∨ ch = '\t' ∨ ch = '\r' then flushWord cur ++ lexLine [] rest
    else if ch = ',' then flushWord cur ++ .comma :: lexLine [] rest
    else if ch = '[' then flushWord cur ++ .lbracket :: lexLine [] rest
    else if ch = ']' then flushWord cur ++ .rbracket :: lexLine [] rest
    else lexLine (ch :: cur) rest

/-- The lines of a text. -/
def splitLines : List Char → List Char → List (List Char)
  | cur, [] => [cur.reverse]
  | cur, ch :: rest => if ch = '\n' then cur.reverse :: splitLines [] rest else splitLines (ch :: cur) rest

/-- The value of a hexadecimal digit, in either case. -/
def hexDigit (ch : Char) : Option Nat :=
  if '0' ≤ ch ∧ ch ≤ '9' then some (ch.toNat - '0'.toNat)
  else if 'A' ≤ ch ∧ ch ≤ 'F' then some (ch.toNat - 'A'.toNat + 10)
  else if 'a' ≤ ch ∧ ch ≤ 'f' then some (ch.toNat - 'a'.toNat + 10)
  else none

/-- The value of a decimal digit. -/
def decDigit (ch : Char) : Option Nat :=
  if '0' ≤ ch ∧ ch ≤ '9' then some (ch.toNat - '0'.toNat) else none

/-- The number some digits write in a base, most significant first. -/
def digits (base : Nat) (digit : Char → Option Nat) : Nat → List Char → Option Nat
  | acc, [] => some acc
  | acc, ch :: rest =>
    match digit ch with
    | some d => digits base digit (acc * base + d) rest
    | none => none

/-- `0x` and 1 to `most` hexadecimal digits (R78). -/
def hexNumber (most : Nat) : List Char → Option Nat
  | '0' :: 'x' :: ds => if ds ≠ [] ∧ ds.length ≤ most then digits 16 hexDigit 0 ds else none
  | _ => none

/-- A decimal number. -/
def decNumber (ds : List Char) : Option Nat :=
  if ds ≠ [] then digits 10 decDigit 0 ds else none

/-- A buffer's name (R21). -/
def bufName : List Char → Option Buf
  | ['A'] => some .A
  | ['B'] => some .B
  | ['R'] => some .R
  | ['X'] => some .X
  | ['Y'] => some .Y
  | _ => none

/-- An address at the head of some tokens, with the tokens after it (R78). -/
def parseAddr : List Token → Option (AddrOperand × List Token)
  | .word b :: .lbracket :: .word t :: .rbracket :: rest => do
    let b ← bufName b
    let t ← decNumber t
    return (.symbol (.limb b t), rest)
  | .word ['C', 'M', 'D'] :: rest => some (.symbol .cmd, rest)
  | .word ['S', 'T', 'A', 'T', 'U', 'S'] :: rest => some (.symbol .status, rest)
  | .word ['C', 'F', 'G', '_', 'W'] :: rest => some (.symbol .cfgW, rest)
  | .word ['C', 'F', 'G', '_', 'N'] :: rest => some (.symbol .cfgN, rest)
  | .word w :: rest => do
    let n ← hexNumber 4 w
    return (.number n, rest)
  | _ => none

/-- The values of a `FILL` up to its closing bracket (R79). -/
def parseValues : List Token → Option (List Nat)
  | [.word w, .rbracket] => do
    let v ← hexNumber 16 w
    return [v]
  | .word w :: .comma :: rest => do
    let v ← hexNumber 16 w
    let vs ← parseValues rest
    return v :: vs
  | _ => none

/-- The statement a line's tokens write (R78, R79). -/
def parseStatement : List Token → Option Statement
  | .word ['W', 'R'] :: rest => do
    match ← parseAddr rest with
    | (addr, [.comma, .word d]) => return .wr addr (← hexNumber 16 d)
    | _ => none
  | .word ['R', 'D'] :: rest => do
    match ← parseAddr rest with
    | (addr, []) => return .rd addr
    | _ => none
  | [.word ['M', 'U', 'L']] => some .mul
  | [.word ['A', 'D', 'D']] => some .add
  | [.word ['R', 'E', 'S', 'E', 'T']] => some .reset
  | [.word ['D', 'U', 'M', 'P'], .word b] => do return .dump (← bufName b)
  | .word ['F', 'I', 'L', 'L'] :: .word b :: .comma :: .lbracket :: rest => do
    return .fill (← bufName b) (← parseValues rest)
  | _ => none

/-- The well-formed statements of some lines, one a line, empty lines and comment lines left out (R78); `none` when a
line is no statement. -/
def parseLines : List (List Char) → Option (List Statement)
  | [] => some []
  | line :: rest =>
    match lexLine [] line with
    | [] => parseLines rest
    | toks => do
      let st ← parseStatement toks
      let sts ← parseLines rest
      if st.wf then return st :: sts else none

/-- The statements of a script's text. -/
def parseScript (text : List Char) : Option (List Statement) := parseLines (splitLines [] text)

end Sys2Proof.Machine
end

