-- ==== Sys2Proof/Safety.lean ====
section
/-! DEFINITION. What claims are stated with: the states a transaction may find, the invariants, and runs. -/

namespace Sys2Proof.Machine

/-- A state a transaction may find: a block within the bounds (R9), its buffers of their lengths (R21), its port
open (R59). -/
abbrev Ready (s : State) : Prop := s.cfg.wf ∧ Memory.wf s ∧ s.ph = .idle

/-- `ERR = 1` exactly when `CAUSE != 0`, and `CAUSE` is a code of R152 (R29, R152). -/
abbrev StatusOk (s : State) : Prop := (s.err = 1#1 ↔ s.cause ≠ 0#3) ∧ s.cause.toNat ≤ 3

/-- The sequencer indices lie in their ranges (R26). -/
abbrev IndicesOk (s : State) : Prop := s.i ≤ s.cfg.W ∧ s.j ≤ s.cfg.W ∧ s.k ≤ s.cfg.N

/-- The invariant of the block between transactions. -/
abbrev BlockInv (s : State) : Prop := Ready s ∧ IndicesOk s ∧ StatusOk s

/-- Where the sequencer stands in each phase (R107, R108, R110, R132). -/
def SequencerOk (s : State) : Prop :=
  match s.ph with
  | .idle => True
  | .mZero => True
  | .mOuter => s.i ≤ s.cfg.W
  | .mInner => s.i < s.cfg.W ∧ s.j < s.cfg.W
  | .mCarry => s.i < s.cfg.W ∧ s.j = s.cfg.W
  | .aStep => s.k < s.cfg.N

/-- The premise a claim about a script takes: no interface error is on record (R151). -/
abbrev ErrorFree (s : State) : Prop := statusWord s = 0#64

/-- The low `n` limbs of a buffer as a number: `P(n)` and `Q(n)` of R111, `lowval(d, n)` of R135. -/
def lowVal (d : List Limb) (n : Nat) : Nat := val (d.take n)

/-- `R` holds a product of two `W`-limb numbers; zero is one (D12). -/
def HoldsProduct (s : State) : Prop :=
  ∃ x y, x < 2 ^ (64 * s.cfg.W) ∧ y < 2 ^ (64 * s.cfg.W) ∧ val s.R = x * y

/-- Two states that agree on all but the sequencer registers (R26), both between transactions. -/
def SameButSequencer (s t : State) : Prop :=
  s.ph = .idle ∧ t = { s with i := t.i, j := t.j, a := t.a, c := t.c, k := t.k, cy := t.cy }

/-- Two states that agree on all but `STATUS`. -/
def SameButStatus (s t : State) : Prop := t = { s with err := t.err, cause := t.cause }

/-- How many of the first `n` micro-steps from `s` are taken in phase `p` (R115). -/
def stepsInPhase (p : Phase) : Nat → State → Nat
  | 0, _ => 0
  | n + 1, s => (if s.ph = p then 1 else 0) + stepsInPhase p n (microStep s)

/-- The event is a reset, alone or during a command. -/
def HostEvent.isReset : HostEvent → Bool
  | .request _ => false
  | .reset => true
  | .resetDuring _ _ => true

/-- `n` steps of the block, stopping at the first refusal (there are no faults): a run of the host's script, as
`Host.Core.run` runs it. -/
def run : Nat → State → Host.Outcome State Fault Refusal
  | 0, s => .next s
  | n + 1, s =>
    match step s with
    | .next t => run n t
    | .fault r => .fault r
    | .refused r => .refused r

end Sys2Proof.Machine
end

