-- ==== Sys2Proof/Certificates/Slice0/Obligations.lean ====
section
/-! DEFINITION. The statements for the provers. -/

open Sys2Proof Sys2Proof.Machine

/-! ### Encoding -/

/-- R80, the worked encodings: the packed words, what they decode to, and the effect of the reserved word `0x102`. -/
def Obligations.WorkedEncodings : Prop :=
  (packRequest 1#1 0x1001#16 0x00000000000000FF#64 = 0x1100100000000000000FF#81 ∧
    decode (.port 0x1100100000000000000FF#81) = .ok (.wr 0x1001#16 0x00000000000000FF#64) ∧
    encode (.wr 0x1001#16 0x00000000000000FF#64) = .port 0x1100100000000000000FF#81) ∧
  (packRequest 0#1 0x3003#16 0#64 = 0x030030000000000000000#81 ∧
    decode (.port 0x030030000000000000000#81) = .ok (.rd 0x3003#16) ∧
    encode (.rd 0x3003#16) = .port 0x030030000000000000000#81) ∧
  (decode (.cmd 0x0000000000000001#64) = .ok .mul ∧
    (encode .mul).request = 0x100000000000000000001#81) ∧
  (decode (.cmd 0x0000000000000002#64) = .ok .add ∧
    (encode .add).request = 0x100000000000000000002#81) ∧
  ∀ s, Ready s →
    exec (.wr 0x0000#16 0x0000000000000102#64) s = .next (flagError .reservedCommand s)

/-- R71, R72, R73: decoding an encoded instruction gives it back with every operand bit, and a word that decodes is
the encoding of its instruction but for the `wdata` of an `RD`, which decoding ignores. -/
def Obligations.DecodeAndEncodeAgree : Prop :=
  (∀ i : Instr, i.wf = true → decode (encode i) = .ok i) ∧
  (∀ (req : Request) (i : Instr), decode (.port req) = .ok i →
    (req.getLsbD 80 = true → encode i = .port req) ∧
    (req.getLsbD 80 = false →
      encode i = .port (packRequest 0#1 (req.extractLsb' 64 16) 0#64) ∧
      ∀ wdata : Limb, decode (.port (packRequest 0#1 (req.extractLsb' 64 16) wdata)) = .ok i)) ∧
  (∀ (cw : CommandWord) (i : Instr), decode (.cmd cw) = .ok i → encode i = .cmd cw)

/-- R75: decoding is total and has two stages, and the second happens only for a `WR` to `0x0000`. -/
def Obligations.DecodingHasTwoStages : Prop :=
  (∀ req : Request, decode (.port req) =
    .ok (if req.getLsbD 80 = true then .wr (req.extractLsb' 64 16) (req.extractLsb' 0 64)
      else .rd (req.extractLsb' 64 16))) ∧
  (∀ s, Ready s →
    exec (.wr 0x0000#16 0x0000000000000001#64) s = exec .mul s ∧
    exec (.wr 0x0000#16 0x0000000000000002#64) s = exec .add s ∧
    ∀ d : Limb, d ≠ 0x0000000000000001#64 → d ≠ 0x0000000000000002#64 →
      exec (.wr 0x0000#16 d) s = .next (flagError .reservedCommand s)) ∧
  (∀ s (addr : HostAddr) (d : Limb), Ready s → addr ≠ 0x0000#16 →
    ∃ t, exec (.wr addr d) s = .next t ∧ t.R = s.R ∧ t.ph = .idle ∧ t.i = s.i ∧ t.j = s.j ∧
      t.a = s.a ∧ t.c = s.c ∧ t.k = s.k ∧ t.cy = s.cy ∧
      (t.X = s.X ∨ ∃ n, locate s.cfg addr = some (.limb .X n) ∧ t.X = s.X.set n d)) ∧
  (∀ s, Ready s →
    exec (.wr 0x1000#16 0x0000000000000001#64) s =
      .next { s with A := s.A.set 0 0x0000000000000001#64 })

/-- R74: every word but the two command codes is reserved, starts no command and records cause 1; no port request is
reserved. -/
def Obligations.ReservedCommandWords : Prop :=
  (∀ cw : CommandWord, decode (.cmd cw) = .error (.reservedCommand cw) ↔
    cw ≠ 0x0000000000000001#64 ∧ cw ≠ 0x0000000000000002#64) ∧
  (∀ cw : CommandWord, decode (.cmd cw) = .error (.reservedCommand cw) ↔
    ((cw.extractLsb' 0 8).toNat = 0 ∨ 3 ≤ (cw.extractLsb' 0 8).toNat) ∨
    (((cw.extractLsb' 0 8).toNat = 1 ∨ (cw.extractLsb' 0 8).toNat = 2) ∧ cw.extractLsb' 8 56 ≠ 0#56)) ∧
  (∀ s (cw : CommandWord), Ready s → cw ≠ 0x0000000000000001#64 → cw ≠ 0x0000000000000002#64 →
    exec (.wr 0x0000#16 cw) s = .next (flagError .reservedCommand s)) ∧
  (∀ req : Request, ∃ i, decode (.port req) = .ok i)

/-! ### A step -/

/-- A step at an idle block whose host's next event is a request runs the instruction the request decodes to, the
event taken off the script; when the request carries a command word that decodes to `i`, the step is `i`'s own
execution. Holding the host's transactions in a script is the model's choice (log entry 3). -/
def Obligations.StepRunsTheDecodedInstruction : Prop :=
  (∀ s (req : Request) rest, s.ph = .idle → s.script = .request req :: rest →
    step s = exec (decodeRequest req) { s with script := rest }) ∧
  (∀ s (e : Encoded) (i : Instr) rest, Ready s → decode e = .ok i →
    s.script = .request e.request :: rest → step s = exec i { s with script := rest })

/-- An idle block with nothing scripted keeps all its state (model's choice, log entry 4). -/
def Obligations.IdleBlockKeepsItsState : Prop :=
  ∀ s, s.ph = .idle → s.script = [] → step s = .next s

/-! ### The port -/

/-- R90: a request with `we = 1` is a `WR`; what a `WR` does, at every address and for every data word, where running a
command is the start step and every micro-step down to `ph = IDLE`. -/
def Obligations.HostWriteRule : Prop :=
  (∀ req : Request, req.getLsbD 80 = true →
    decode (.port req) = .ok (.wr (req.extractLsb' 64 16) (req.extractLsb' 0 64))) ∧
  (∀ s, Ready s →
    (∃ n, runMul s = microSteps n (startMul s) ∧ (runMul s).ph = .idle ∧
      ∀ m, m < n → (microSteps m (startMul s)).ph ≠ .idle) ∧
    (∃ n, runAdd s = microSteps n (startAdd s) ∧ (runAdd s).ph = .idle ∧
      ∀ m, m < n → (microSteps m (startAdd s)).ph ≠ .idle)) ∧
  ∀ s (addr : HostAddr) (data : Limb), Ready s →
    exec (.wr addr data) s = .next (
      let rg := addr.extractLsb' 12 4
      let t := (addr.extractLsb' 0 12).toNat
      if rg = 0x1#4 ∧ t < s.cfg.W then { s with A := s.A.set t data }
      else if rg = 0x2#4 ∧ t < s.cfg.W then { s with B := s.B.set t data }
      else if rg = 0x4#4 ∧ t < s.cfg.N then { s with X := s.X.set t data }
      else if rg = 0x5#4 ∧ t < s.cfg.N then { s with Y := s.Y.set t data }
      else if addr = 0x0000#16 then
        if data = 0x0000000000000001#64 then runMul s
        else if data = 0x0000000000000002#64 then runAdd s
        else flagError .reservedCommand s
      else if addr = 0x0001#16 ∨ addr = 0x0002#16 ∨ addr = 0x0003#16 then flagError .readOnly s
      else if rg = 0x3#4 ∧ t < 2 * s.cfg.W then flagError .readOnly s
      else flagError .unmapped s)

/-- R91: a request with `we = 0` is an `RD`, its `wdata` ignored; what an `RD` answers and does, at every address. -/
def Obligations.HostReadRule : Prop :=
  (∀ req : Request, req.getLsbD 80 = false → decode (.port req) = .ok (.rd (req.extractLsb' 64 16))) ∧
  ∀ s (addr : HostAddr), Ready s →
    exec (.rd addr) s = .next (
      let rg := addr.extractLsb' 12 4
      let t := (addr.extractLsb' 0 12).toNat
      let answer : Limb → State := fun v => { s with rdata := s.rdata ++ [v] }
      if rg = 0x1#4 ∧ t < s.cfg.W then answer (s.A.getD t 0#64)
      else if rg = 0x2#4 ∧ t < s.cfg.W then answer (s.B.getD t 0#64)
      else if rg = 0x3#4 ∧ t < 2 * s.cfg.W then answer (s.R.getD t 0#64)
      else if rg = 0x4#4 ∧ t < s.cfg.N then answer (s.X.getD t 0#64)
      else if rg = 0x5#4 ∧ t < s.cfg.N then answer (s.Y.getD t 0#64)
      else if addr = 0x0000#16 then answer 0x0000000000000000#64
      else if addr = 0x0001#16 then answer ((s.cause ++ s.err).setWidth 64)
      else if addr = 0x0002#16 then answer (BitVec.ofNat 64 s.cfg.W)
      else if addr = 0x0003#16 then answer (BitVec.ofNat 64 s.cfg.N)
      else flagError .unmapped (answer 0x0000000000000000#64))

/-- R52, R53: the address map by address numbers: the four control registers, the five windows, and nothing else. -/
def Obligations.AddressMapRows : Prop :=
  ∀ cfg : Config, cfg.wf →
    (locate cfg 0x0000#16 = some .cmd ∧ locate cfg 0x0001#16 = some .status ∧
      locate cfg 0x0002#16 = some .cfgW ∧ locate cfg 0x0003#16 = some .cfgN) ∧
    (∀ t, t < cfg.W → locate cfg (BitVec.ofNat 16 (0x1000 + t)) = some (.limb .A t)) ∧
    (∀ t, t < cfg.W → locate cfg (BitVec.ofNat 16 (0x2000 + t)) = some (.limb .B t)) ∧
    (∀ t, t < 2 * cfg.W → locate cfg (BitVec.ofNat 16 (0x3000 + t)) = some (.limb .R t)) ∧
    (∀ t, t < cfg.N → locate cfg (BitVec.ofNat 16 (0x4000 + t)) = some (.limb .X t)) ∧
    (∀ t, t < cfg.N → locate cfg (BitVec.ofNat 16 (0x5000 + t)) = some (.limb .Y t)) ∧
    (∀ addr : HostAddr, locate cfg addr = none ↔
      (4 ≤ addr.toNat ∧ addr.toNat < 0x1000) ∨
      (0x1000 + cfg.W ≤ addr.toNat ∧ addr.toNat < 0x2000) ∨
      (0x2000 + cfg.W ≤ addr.toNat ∧ addr.toNat < 0x3000) ∨
      (0x3000 + 2 * cfg.W ≤ addr.toNat ∧ addr.toNat < 0x4000) ∨
      (0x4000 + cfg.N ≤ addr.toNat ∧ addr.toNat < 0x5000) ∨
      (0x5000 + cfg.N ≤ addr.toNat))

/-- R54: an access to an unmapped address changes no buffer and no sequencer register, records cause 2, and a read
of it returns zero. -/
def Obligations.UnmappedAccess : Prop :=
  ∀ s (addr : HostAddr), Ready s → locate s.cfg addr = none →
    (∀ d : Limb, exec (.wr addr d) s = .next (flagError .unmapped s)) ∧
    exec (.rd addr) s =
      .next (flagError .unmapped { s with rdata := s.rdata ++ [0x0000000000000000#64] })

/-- R57, R23: a limb written to `A`, `B`, `X` or `Y` is read back whole, every other host address reads as before, and
nothing but that limb changes; a second write of the same word changes nothing. -/
def Obligations.WriteChangesOneLimbOnly : Prop :=
  ∀ s (b : Buf) (t : Nat) (d : Limb), Ready s → b ≠ .R → t < bufLen s.cfg b →
    ∃ u, exec (.wr (limbAddr b t) d) s = .next u ∧
      memRead u (limbAddr b t) = d ∧
      (∀ addr : HostAddr, addr ≠ limbAddr b t → memRead u addr = memRead s addr) ∧
      u.buf b = (s.buf b).set t d ∧ (∀ b', b' ≠ b → u.buf b' = s.buf b') ∧
      u = { s with A := u.A, B := u.B, R := u.R, X := u.X, Y := u.Y } ∧
      exec (.wr (limbAddr b t) d) u = .next u

/-- R32: `CMD` stores nothing: a write runs the command or records cause 1, a read returns zero and does nothing. -/
def Obligations.CmdIsADoorway : Prop :=
  ∀ s, Ready s →
    (∀ d : Limb, exec (.wr 0x0000#16 d) s =
      match decodeCommand d with
      | some c => exec c.instr s
      | none => .next (flagError .reservedCommand s)) ∧
    exec (.rd 0x0000#16) s = .next { s with rdata := s.rdata ++ [0x0000000000000000#64] }

/-- R33: `CFG_W` and `CFG_N` read as the built-in widths, a write of either records cause 3 and changes nothing else,
and no step changes them, reset included. -/
def Obligations.WidthsAreConstants : Prop :=
  (∀ s, Ready s →
    exec (.rd 0x0002#16) s = .next { s with rdata := s.rdata ++ [BitVec.ofNat 64 s.cfg.W] } ∧
    exec (.rd 0x0003#16) s = .next { s with rdata := s.rdata ++ [BitVec.ofNat 64 s.cfg.N] } ∧
    (∀ d : Limb, exec (.wr 0x0002#16 d) s = .next (flagError .readOnly s) ∧
      exec (.wr 0x0003#16 d) s = .next (flagError .readOnly s))) ∧
  (∀ s t, step s = .next t → t.cfg = s.cfg)

/-- Only `WR` changes `A`, `B` and `Y`, and only at a limb of that buffer; `R` changes only by `MUL`, and `X` only by
`WR` or `ADD`, a command counting also when a `WR` to `CMD` carries it. -/
def Obligations.WhoChangesEachBuffer : Prop :=
  ∀ (i : Instr) s t, exec i s = .next t →
    (t.A ≠ s.A → ∃ addr d n, i = .wr addr d ∧ locate s.cfg addr = some (.limb .A n)) ∧
    (t.B ≠ s.B → ∃ addr d n, i = .wr addr d ∧ locate s.cfg addr = some (.limb .B n)) ∧
    (t.Y ≠ s.Y → ∃ addr d n, i = .wr addr d ∧ locate s.cfg addr = some (.limb .Y n)) ∧
    (t.R ≠ s.R → i = .mul ∨ i = .wr 0x0000#16 0x0000000000000001#64) ∧
    (t.X ≠ s.X → i = .add ∨ i = .wr 0x0000#16 0x0000000000000002#64 ∨
      ∃ addr d n, i = .wr addr d ∧ locate s.cfg addr = some (.limb .X n))

/-- While a command runs the port is closed to every instruction, and a step lets the command run on by one micro-step
unless the host resets. The refusal's name and the single micro-step are the model's choice (log entries 5 and 6). -/
def Obligations.PortIsClosedWhileACommandRuns : Prop :=
  ∀ s, s.cfg.wf → Memory.wf s → s.ph ≠ .idle →
    (∀ i, exec i s = .refused .portClosed) ∧
    ((∀ rest, s.script ≠ .reset :: rest) → step s = .next (microStep s))

/-- The model's choice (log entries 1 and 5): an instruction in a state of no block is refused by name. -/
def Obligations.NoBlockNoInstruction : Prop :=
  ∀ (i : Instr) s,
    (¬ s.cfg.wf → exec i s = .refused .widthOutOfBounds) ∧
    (s.cfg.wf → ¬ Memory.wf s → exec i s = .refused .widthMismatch)

/-! ### Errors and `STATUS` -/

/-- R151: `flag_error` records the first cause since reset and sets `ERR`, absorbs a later one, and changes nothing but
`STATUS`; transactions after it work as they would have without it, the commands included. -/
def Obligations.FlagErrorRecordsTheFirst : Prop :=
  (∀ s (e : ErrorCause), s.cause = 0#3 →
    flagError e s = { s with cause := e.code, err := 1#1 }) ∧
  (∀ s (e : ErrorCause), s.cause ≠ 0#3 → flagError e s = s) ∧
  (ErrorCause.reservedCommand.code = 1#3 ∧ ErrorCause.unmapped.code = 2#3 ∧ ErrorCause.readOnly.code = 3#3) ∧
  (∀ (i : Instr) s (e : ErrorCause), Ready s → i ≠ .rd 0x0001#16 →
    ∃ t u, exec i s = .next t ∧ exec i (flagError e s) = .next u ∧ SameButStatus t u) ∧
  (∀ (i : Instr) s t, s.cause ≠ 0#3 → exec i s = .next t → t.cause = s.cause ∧ t.err = s.err)

/-- R152: from no error on record, the cause an instruction records is the table's, and an erring instruction has the
table's other effect only; no micro-step raises an error. -/
def Obligations.ErrorCauseTable : Prop :=
  (∀ s, (microStep s).cause = s.cause ∧ (microStep s).err = s.err) ∧
  ∀ (i : Instr) s t, s.cause = 0#3 → exec i s = .next t →
    (t.cause = 1#3 ↔ ∃ d, i = .wr 0x0000#16 d ∧ d ≠ 0x0000000000000001#64 ∧ d ≠ 0x0000000000000002#64) ∧
    (t.cause = 2#3 ↔ ∃ addr, locate s.cfg addr = none ∧ (i = .rd addr ∨ ∃ d, i = .wr addr d)) ∧
    (t.cause = 3#3 ↔ ∃ addr d, i = .wr addr d ∧
      (locate s.cfg addr = some .status ∨ locate s.cfg addr = some .cfgW ∨ locate s.cfg addr = some .cfgN ∨
        ∃ n, locate s.cfg addr = some (.limb .R n))) ∧
    t.cause.toNat ≤ 3 ∧
    (t.cause ≠ 0#3 →
      t = { s with err := 1#1, cause := t.cause, rdata := t.rdata } ∧
      (∀ addr, i = .rd addr → t.rdata = s.rdata ++ [0x0000000000000000#64]) ∧
      (∀ addr d, i = .wr addr d → t.rdata = s.rdata))

/-- R29: the fields of `STATUS`, the read that returns them, their reset values, that `ERR` is 1 exactly when `CAUSE` is
not 0, that both stay once set until reset, and that `MUL` and `ADD` set neither. -/
def Obligations.StatusFields : Prop :=
  (∀ s, (statusWord s).extractLsb' 0 1 = s.err ∧ (statusWord s).extractLsb' 1 3 = s.cause ∧
    (statusWord s).extractLsb' 4 60 = 0#60) ∧
  (∀ s, Ready s →
    exec (.rd 0x0001#16) s = .next { s with rdata := s.rdata ++ [statusWord s] } ∧
    ∀ d : Limb, exec (.wr 0x0001#16 d) s = .next (flagError .readOnly s)) ∧
  (∀ cfg, (State.resetOf cfg).err = 0#1 ∧ (State.resetOf cfg).cause = 0#3) ∧
  (∀ s t, (s.err = 1#1 ↔ s.cause ≠ 0#3) → step s = .next t → (t.err = 1#1 ↔ t.cause ≠ 0#3)) ∧
  (∀ s t, s.cause ≠ 0#3 → step s = .next t →
    (t.err = s.err ∧ t.cause = s.cause) ∨ ∃ e rest, s.script = e :: rest ∧ e.isReset = true) ∧
  (∀ s t, exec .mul s = .next t ∨ exec .add s = .next t → t.err = s.err ∧ t.cause = s.cause)

/-- R155: once an error is on record `STATUS` stays, whatever transactions follow, until reset. -/
def Obligations.OnlyResetClearsStatus : Prop :=
  (∀ n s t, s.cause ≠ 0#3 → (∀ e ∈ s.script, e.isReset = false) → run n s = .next t →
    t.cause = s.cause ∧ t.err = s.err) ∧
  (∀ s rest, s.script = .reset :: rest →
    ∃ t, step s = .next t ∧ t.err = 0#1 ∧ t.cause = 0#3)

/-! ### Reset -/

/-- R34: the value of every piece of state right after reset, be it the state a run starts from or the state a reset
event leaves. -/
def Obligations.ResetValues : Prop :=
  ∀ (cfg : Config) t,
    (t = State.resetOf cfg ∨ ∃ s rest, s.cfg = cfg ∧ s.script = .reset :: rest ∧ step s = .next t) →
    (∀ b, t.buf b = List.replicate (bufLen cfg b) 0x0000000000000000#64) ∧
    t.ph = .idle ∧ t.i = 0 ∧ t.j = 0 ∧ t.k = 0 ∧
    t.a = 0x0000000000000000#64 ∧ t.c = 0x0000000000000000#64 ∧ t.cy = 0#1 ∧
    t.err = 0#1 ∧ t.cause = 0#3 ∧ t.cfg = cfg

/-- R170: reset, at any moment, also in the middle of a command, leaves every piece of the block's state at its reset
value and the widths as they are; a command it cuts short leaves no trace. The event that cuts a command short after `n`
micro-steps is the model's choice (log entry 7), and so is that the host's script and answers, the model's own fields,
stay (log entries 3 and 11) and that widths outside the bounds are reset alike (log entry 1). -/
def Obligations.ResetIsTotal : Prop :=
  (∀ s rest, s.script = .reset :: rest →
    step s = .next { State.resetOf s.cfg with script := rest, rdata := s.rdata }) ∧
  (∀ s (cw : CommandWord) n rest, s.ph = .idle → s.script = .resetDuring cw n :: rest →
    step s = .next { State.resetOf s.cfg with script := rest, rdata := s.rdata })

/-! ### The multiplier -/

/-- R104: `mac` is exact in 128 bits, its halves give it back, and its largest value is reached only by four limbs of
ones. -/
def Obligations.MacIsExact : Prop :=
  ∀ a b r c : Limb,
    (mac a b r c).toNat = a.toNat * b.toNat + r.toNat + c.toNat ∧
    (mac a b r c).toNat = (hi (mac a b r c)).toNat * 2 ^ 64 + (lo (mac a b r c)).toNat ∧
    ((mac a b r c).toNat = 2 ^ 128 - 1 ↔
      a = 0xFFFFFFFFFFFFFFFF#64 ∧ b = 0xFFFFFFFFFFFFFFFF#64 ∧ r = 0xFFFFFFFFFFFFFFFF#64 ∧
        c = 0xFFFFFFFFFFFFFFFF#64)

/-- R102, R103, R105, R106, R107, R108, R110: what the multiplier's start step and each of its micro-steps change, and
that M_ZERO comes first and only once. -/
def Obligations.MultiplierMicroSteps : Prop :=
  (∀ s, startMul s = { s with ph := .mZero }) ∧
  (∀ s n, (microSteps (n + 1) (startMul s)).ph ≠ .mZero) ∧
  (∀ s, s.ph = .mZero → microStep s =
    { s with R := List.replicate (2 * s.cfg.W) 0x0000000000000000#64, i := 0, ph := .mOuter }) ∧
  (∀ s, s.ph = .mOuter → s.i = s.cfg.W → microStep s = { s with ph := .idle }) ∧
  (∀ s, s.ph = .mOuter → s.i < s.cfg.W → s.A.getD s.i 0#64 = 0#64 →
    microStep s = { s with a := 0#64, i := s.i + 1 }) ∧
  (∀ s, s.ph = .mOuter → s.i < s.cfg.W → s.A.getD s.i 0#64 ≠ 0#64 →
    microStep s = { s with a := s.A.getD s.i 0#64, c := 0#64, j := 0, ph := .mInner }) ∧
  (∀ s, s.ph = .mInner → ∃ u, microStep s = u ∧
    u.R = s.R.set (s.i + s.j) (lo (mac s.a (s.B.getD s.j 0#64) (s.R.getD (s.i + s.j) 0#64) s.c)) ∧
    u.c = hi (mac s.a (s.B.getD s.j 0#64) (s.R.getD (s.i + s.j) 0#64) s.c) ∧
    u.j = s.j + 1 ∧ (s.j + 1 = s.cfg.W → u.ph = .mCarry) ∧ (s.j + 1 ≠ s.cfg.W → u.ph = .mInner) ∧
    u = { s with R := u.R, c := u.c, j := u.j, ph := u.ph }) ∧
  (∀ s, s.ph = .mCarry → microStep s =
    { s with R := s.R.set (s.i + s.cfg.W) s.c, i := s.i + 1, ph := .mOuter })

/-- R100: `MUL` leaves in `R` the exact product of `A` and `B`, whatever `R` held, and changes nothing else but the
sequencer registers, left as R105 says: `i = W`, `a` the last limb of `A`, `j` and `c` as the last outer step that ran
left them, and as they were when none ran. A `WR` of `0x1` to `0x0000` is `MUL`. -/
def Obligations.MulComputesTheExactProduct : Prop :=
  ∀ s, Ready s →
    ∃ t, exec .mul s = .next t ∧
      t.R = limbs (2 * s.cfg.W) (val s.A * val s.B) ∧ val t.R = val s.A * val s.B ∧
      t = { s with R := t.R, i := s.cfg.W, j := t.j, a := s.A.getD (s.cfg.W - 1) 0#64, c := t.c } ∧
      ((∀ n, n < s.cfg.W → s.A.getD n 0#64 = 0#64) → t.j = s.j ∧ t.c = s.c) ∧
      (∀ n, n < s.cfg.W → s.A.getD n 0#64 ≠ 0#64 → (∀ l, n < l → l < s.cfg.W → s.A.getD l 0#64 = 0#64) →
        t.j = s.cfg.W ∧ t.c = t.R.getD (n + s.cfg.W) 0#64) ∧
      exec (.wr 0x0000#16 0x0000000000000001#64) s = .next t

/-- R111: the invariants of the multiplier at every micro-step. -/
def Obligations.MultiplierInvariants : Prop :=
  ∀ s n, Ready s →
    let m := microSteps n (startMul s)
    (m.ph = .mOuter →
      val m.R = lowVal s.A m.i * val s.B ∧
      ∀ t, m.i + s.cfg.W ≤ t → t < 2 * s.cfg.W → m.R.getD t 0#64 = 0#64) ∧
    (m.ph = .mInner ∨ m.ph = .mCarry →
      val m.R + m.c.toNat * 2 ^ (64 * (m.i + m.j)) =
        lowVal s.A m.i * val s.B + (s.A.getD m.i 0#64).toNat * lowVal s.B m.j * 2 ^ (64 * m.i) ∧
      ∀ t, m.i + s.cfg.W ≤ t → t < 2 * s.cfg.W → m.R.getD t 0#64 = 0#64)

/-- R115: how many micro-steps a `MUL` takes, by phase and in all. -/
def Obligations.MultiplierStepCounts : Prop :=
  ∀ s, Ready s →
    let z := nonZeroLimbs s.A
    let n := s.cfg.W + 2 + z * (s.cfg.W + 1)
    (∀ m, m < n → (microSteps m (startMul s)).ph ≠ .idle) ∧
    (microSteps n (startMul s)).ph = .idle ∧
    microSteps n (startMul s) = runMul s ∧
    stepsInPhase .mZero n (startMul s) = 1 ∧
    stepsInPhase .mOuter n (startMul s) = s.cfg.W + 1 ∧
    stepsInPhase .mInner n (startMul s) = z * s.cfg.W ∧
    stepsInPhase .mCarry n (startMul s) = z ∧
    n ≤ s.cfg.W ^ 2 + 2 * s.cfg.W + 2

/-- R114: a multiplier that runs the outer step for zero limbs too reaches the same buffers and `STATUS`. -/
def Obligations.ZeroSkipChangesNoResult : Prop :=
  ∀ s, Ready s →
    ∃ n, (microStepsNoSkip n (startMul s)).ph = .idle ∧
      SameButSequencer (runMul s) (microStepsNoSkip n (startMul s))

/-- R113: the product's value, zero absorption on either side, and commutativity. -/
def Obligations.MultiplicationLaws : Prop :=
  ∀ s, Ready s →
    ∃ t u, exec .mul s = .next t ∧ exec .mul { s with A := s.B, B := s.A } = .next u ∧
      val t.R = val s.A * val s.B ∧ u.R = t.R ∧
      (val s.A = 0 ∨ val s.B = 0 → t.R = List.replicate (2 * s.cfg.W) 0#64)

/-- `MUL` does not depend on what `R` held: products do not add up across commands. -/
def Obligations.OldProductDoesNotEnter : Prop :=
  ∀ s (r : List Limb), Ready s → r.length = 2 * s.cfg.W →
    exec .mul { s with R := r } = exec .mul s

/-! ### The adder -/

/-- R131, R132: what the adder's start step and its micro-step change. -/
def Obligations.AdderMicroSteps : Prop :=
  (∀ s, startAdd s = { s with k := 0, cy := 0#1, ph := .aStep }) ∧
  (∀ s, s.ph = .aStep → ∃ u, microStep s = u ∧
    (s.k < s.X.length →
      (u.X.getD s.k 0#64).toNat + u.cy.toNat * 2 ^ 64 =
        (s.X.getD s.k 0#64).toNat + (s.Y.getD s.k 0#64).toNat + s.cy.toNat) ∧
    (∀ t, t ≠ s.k → u.X.getD t 0#64 = s.X.getD t 0#64) ∧ u.X.length = s.X.length ∧
    u.k = s.k + 1 ∧ (s.k + 1 = s.cfg.N → u.ph = .idle) ∧ (s.k + 1 ≠ s.cfg.N → u.ph = .aStep) ∧
    u = { s with X := u.X, cy := u.cy, k := u.k, ph := u.ph })

/-- R130: `ADD` leaves in `X` the sum modulo `2^(64N)`, and changes nothing else but `k` and `cy`, which keeps the carry
that R134 discards; a `WR` of `0x2` to `0x0000` is `ADD`. -/
def Obligations.AddComputesTheModularSum : Prop :=
  ∀ s, Ready s →
    exec .add s = .next { s with
      X := limbs s.cfg.N ((val s.X + val s.Y) % 2 ^ (64 * s.cfg.N))
      k := s.cfg.N
      cy := BitVec.ofNat 1 ((val s.X + val s.Y) / 2 ^ (64 * s.cfg.N)) } ∧
    exec (.wr 0x0000#16 0x0000000000000002#64) s = exec .add s

/-- R135: the invariant of the adder at every micro-step, and its step count. -/
def Obligations.AdderInvariant : Prop :=
  ∀ s, Ready s →
    (∀ n, n ≤ s.cfg.N →
      let m := microSteps n (startAdd s)
      m.k = n ∧ (m.ph = .idle ↔ n = s.cfg.N) ∧
      lowVal m.X n + m.cy.toNat * 2 ^ (64 * n) = lowVal s.X n + lowVal s.Y n ∧
      ∀ t, n ≤ t → m.X.getD t 0#64 = s.X.getD t 0#64) ∧
    microSteps s.cfg.N (startAdd s) = runAdd s

/-- R133: the wide sum fits 65 bits, and the two-check form gives the same limb and the same carry,
its two checks never both 1. -/
def Obligations.CarryFormsAgree : Prop :=
  ∀ (x y : Limb) (cy : BitVec 1),
    (addWide x y cy).toNat = x.toNat + y.toNat + cy.toNat ∧
    (addWide x y cy).toNat = (carryOut (addWide x y cy)).toNat * 2 ^ 64 + (sumLimb (addWide x y cy)).toNat ∧
    addTwoCheck x y cy = (sumLimb (addWide x y cy), carryOut (addWide x y cy)) ∧
    ¬ ((x + y).toNat < x.toNat ∧ (x + y + cy.setWidth 64).toNat < (x + y).toNat)

/-- R137: wraparound, the identity, and that the sum depends on `val(X) + val(Y)` only. -/
def Obligations.AdditionLaws : Prop :=
  ∀ s, Ready s →
    ∃ t u, exec .add s = .next t ∧ exec .add { s with X := s.Y, Y := s.X } = .next u ∧
      val t.X = (val s.X + val s.Y) % 2 ^ (64 * s.cfg.N) ∧ u.X = t.X ∧
      (s.Y = List.replicate s.cfg.N 0#64 → t.X = s.X) ∧
      (s.X = List.replicate s.cfg.N 0xFFFFFFFFFFFFFFFF#64 → val s.Y = 1 →
        t.X = List.replicate s.cfg.N 0#64 ∧ t.err = s.err ∧ t.cause = s.cause)

/-- Repeating `ADD` adds `Y` again each time (R130's corner case): after `m` commands `X` holds `x0 + m * val(Y)` modulo
`2^(64N)`, and `Y` survives. -/
def Obligations.RepeatedAddAccumulates : Prop :=
  ∀ s (m : Nat), Ready s → s.script = List.replicate m (.request (encode .add).request) →
    ∃ t, run m s = .next t ∧ t.script = [] ∧
      val t.X = (val s.X + m * val s.Y) % 2 ^ (64 * s.cfg.N) ∧
      t = { s with X := t.X, k := t.k, cy := t.cy, script := [] }

/-! ### Buffers and their values -/

/-- Rests on R11: `val` is the weighted sum of the limbs, and `limbs` is its inverse. R11 defines `limbs_n(v)` for
`v < 2^(64n)` only; what the clauses on its length and its limbs say of a larger `v` is the model's choice (log entry
18). -/
def Obligations.BufferValues : Prop :=
  (∀ d : List Limb, val d = ((List.range d.length).map (fun i => (d.getD i 0#64).toNat * 2 ^ (64 * i))).sum) ∧
  (∀ d : List Limb, val d < 2 ^ (64 * d.length)) ∧
  (∀ n v, (limbs n v).length = n) ∧
  (∀ n v i, i < n → ((limbs n v).getD i 0#64).toNat = (v >>> (64 * i)) % 2 ^ 64) ∧
  (∀ n v, v < 2 ^ (64 * n) → val (limbs n v) = v) ∧
  (∀ d : List Limb, limbs d.length (val d) = d)

/-- The engines' accesses stay inside the buffers: every micro-step keeps the sequencer's index ranges, and in each
phase the indices it uses lie inside. -/
def Obligations.EngineAccessesStayInBounds : Prop :=
  ∀ s, s.cfg.wf → Memory.wf s → SequencerOk s →
    Memory.wf (microStep s) ∧ SequencerOk (microStep s) ∧
    (s.ph = .mOuter → s.i ≠ s.cfg.W → s.i < s.A.length) ∧
    (s.ph = .mInner → s.j < s.B.length ∧ s.i + s.j < s.R.length) ∧
    (s.ph = .mCarry → s.i + s.cfg.W < s.R.length) ∧
    (s.ph = .aStep → s.k < s.X.length ∧ s.k < s.Y.length)

/-! ### The whole machine -/

/-- The invariant holds right after reset, in every configuration within the bounds, whatever the host's script. -/
def Obligations.InvariantHoldsAtReset : Prop :=
  BlockInv State.reset ∧ ∀ (cfg : Config) script, cfg.wf → BlockInv { State.resetOf cfg with script := script }

/-- Every step keeps the invariant: the bounds, the buffers' lengths, the idle phase between transactions, the index
ranges, and `STATUS` as R29 and R152 say. -/
def Obligations.StepKeepsTheInvariant : Prop :=
  ∀ s t, BlockInv s → step s = .next t → BlockInv t

/-- Rests on R59, R150 and R179: from the invariant no run ever stops: every transaction and every command completes, and
the block is idle after each. That a run goes on past the script's end, its steps answering the same state, is the
model's choice (log entry 4), and so is one step for one event (log entry 6). -/
def Obligations.NoRunEverStops : Prop :=
  ∀ n s, BlockInv s → ∃ t, run n s = .next t ∧ t.ph = .idle

/-- A run of a script takes one step for each event (model's choice, log entry 6) and ends with the script done and the
block idle; that further steps answer and change nothing is the model's choice too (log entry 4). -/
def Obligations.ScriptRunsToItsEnd : Prop :=
  ∀ s, BlockInv s → ∃ t, run s.script.length s = .next t ∧ t.script = [] ∧ t.ph = .idle ∧
    ∀ n, run (s.script.length + n) s = .next t

/-- In every run `R` holds a product of two `W`-limb numbers or zero (the spec's aim in D12: a host cannot write `R`). -/
def Obligations.RHoldsAProductOrZero : Prop :=
  (∀ cfg : Config, HoldsProduct (State.resetOf cfg)) ∧
  (∀ s t, BlockInv s → HoldsProduct s → step s = .next t → HoldsProduct t)

/-- The sequencer registers left by a command influence nothing: two blocks that differ in them alone run every script
alike. -/
def Obligations.SequencerLeftoversAreInvisible : Prop :=
  ∀ n s t, BlockInv s → SameButSequencer s t →
    ∃ s' t', run n s = .next s' ∧ run n t = .next t' ∧ SameButSequencer s' t'

/-! ### Host scripts -/

/-- Rests on R79: `FILL` writes its values from index 0 on and nothing else; `DUMP` reads a whole buffer, limb 0 first.
That a value wider than a limb is cut to its low 64 bits is the model's choice (log entry 13). -/
def Obligations.FillAndDump : Prop :=
  (∀ s b (vs : List Nat), Ready s → b ≠ .R → vs.length ≤ bufLen s.cfg b →
    s.script = assemble s.cfg (.fill b vs) →
    ∃ t, run vs.length s = .next t ∧
      t.buf b = vs.map (BitVec.ofNat 64) ++ (s.buf b).drop vs.length ∧
      (∀ b', b' ≠ b → t.buf b' = s.buf b') ∧
      t = { s with A := t.A, B := t.B, R := t.R, X := t.X, Y := t.Y, script := [] }) ∧
  (∀ s b, Ready s → s.script = assemble s.cfg (.dump b) →
    run (bufLen s.cfg b) s = .next { s with script := [], rdata := s.rdata ++ s.buf b })

/-- The pseudo-instructions `MUL`, `ADD` and `RESET`, and the two real statements, do in one step what the instruction
or the event does. What they say of a statement that is not well formed is the model's choice (log entry 13). -/
def Obligations.StatementsRunTheirInstructions : Prop :=
  ∀ s, Ready s →
    (s.script = assemble s.cfg .mul → step s = exec .mul { s with script := [] }) ∧
    (s.script = assemble s.cfg .add → step s = exec .add { s with script := [] }) ∧
    (s.script = assemble s.cfg .reset → step s = .next (resetEvent { s with script := [] })) ∧
    (∀ addr d, s.script = assemble s.cfg (.wr addr d) →
      step s = exec (.wr addr.addr (BitVec.ofNat 64 d)) { s with script := [] }) ∧
    (∀ addr, s.script = assemble s.cfg (.rd addr) → step s = exec (.rd addr.addr) { s with script := [] })
end

