-- ==== Sys2Proof/Laws/Encoding.lean ====
section
/-! SUPPORT. The fields of a packed request, taken apart and put together. -/

namespace Sys2Proof

theorem packRequest_toNat (we : BitVec 1) (addr : HostAddr) (d : Limb) :
    (packRequest we addr d).toNat = we.toNat * 2 ^ 80 + addr.toNat * 2 ^ 64 + d.toNat := by
  rw [packRequest, BitVec.toNat_append, ← Nat.shiftLeft_add_eq_or_of_lt d.isLt, BitVec.toNat_append,
    ← Nat.shiftLeft_add_eq_or_of_lt addr.isLt, Nat.shiftLeft_eq, Nat.shiftLeft_eq]
  omega

@[simp] theorem reqWe_packRequest (we : BitVec 1) (addr : HostAddr) (d : Limb) :
    reqWe (packRequest we addr d) = we := by
  have hw := we.isLt
  have ha := addr.isLt
  have hd := d.isLt
  apply BitVec.eq_of_toNat_eq
  simp only [reqWe, BitVec.extractLsb'_toNat, Nat.shiftRight_eq_div_pow, packRequest_toNat]
  omega

@[simp] theorem reqAddr_packRequest (we : BitVec 1) (addr : HostAddr) (d : Limb) :
    reqAddr (packRequest we addr d) = addr := by
  have hw := we.isLt
  have ha := addr.isLt
  have hd := d.isLt
  apply BitVec.eq_of_toNat_eq
  simp only [reqAddr, BitVec.extractLsb'_toNat, Nat.shiftRight_eq_div_pow, packRequest_toNat]
  omega

@[simp] theorem reqData_packRequest (we : BitVec 1) (addr : HostAddr) (d : Limb) :
    reqData (packRequest we addr d) = d := by
  have hw := we.isLt
  have ha := addr.isLt
  have hd := d.isLt
  apply BitVec.eq_of_toNat_eq
  simp only [reqData, BitVec.extractLsb'_toNat, Nat.shiftRight_eq_div_pow, packRequest_toNat]
  omega

/-- A request is its three fields (R71). -/
theorem packRequest_fields (req : Request) : packRequest (reqWe req) (reqAddr req) (reqData req) = req := by
  have h := req.isLt
  apply BitVec.eq_of_toNat_eq
  rw [packRequest_toNat]
  simp only [reqWe, reqAddr, reqData, BitVec.extractLsb'_toNat, Nat.shiftRight_eq_div_pow]
  omega

/-- `we` is bit 80 (R71). -/
theorem reqWe_eq_one_iff (req : Request) : reqWe req = 1#1 ↔ req.getLsbD 80 = true := by
  have h : (reqWe req).getLsbD 0 = req.getLsbD 80 := by
    simp only [reqWe, BitVec.getLsbD_extractLsb']; rfl
  rw [← h]
  generalize reqWe req = w
  revert w; decide

end Sys2Proof
end

