-- ==== Sys2Proof/Laws/PerInstr.lean ====
section
/-! SUPPORT. Statements made for every instruction, one lemma per constructor. -/

namespace Sys2Proof.Laws.MatchesTable

/-- The mask of an instruction's row of the opcode map (R73). -/
def rowMask : Instr → Nat
  | .wr _ _ => 0x100000000000000000000
  | .rd _ => 0x100000000000000000000
  | .mul => 0xFFFFFFFFFFFFFFFF
  | .add => 0xFFFFFFFFFFFFFFFF

/-- The match of an instruction's row of the opcode map (R73). -/
def rowMatch : Instr → Nat
  | .wr _ _ => 0x100000000000000000000
  | .rd _ => 0x000000000000000000000
  | .mul => 0x0000000000000001
  | .add => 0x0000000000000002

/-- The width of an instruction's format (R71, R72). -/
def rowWidth : Instr → Nat
  | .wr _ _ => 81
  | .rd _ => 81
  | .mul => 64
  | .add => 64

/-- The number an encoded word is, and the width of its format. -/
def encodedBits : Encoded → Nat × Nat
  | .port req => (81, req.toNat)
  | .cmd cw => (64, cw.toNat)

/-- The encoded word has the width of the instruction's row and selects that row: "a word `w` selects the row when
`w & mask = match`" (R73). -/
def Statement (i : Instr) : Prop :=
  (encodedBits (encode i)).1 = rowWidth i ∧ (encodedBits (encode i)).2 &&& rowMask i = rowMatch i

theorem and_bit80 (w : Nat) (h : w < 2 ^ 81) : w &&& 2 ^ 80 = w / 2 ^ 80 * 2 ^ 80 := by
  rw [Nat.and_two_pow, Nat.testBit, Nat.shiftRight_eq_div_pow, Nat.and_comm, Nat.and_one_is_mod]
  have hd : w / 2 ^ 80 < 2 := by omega
  interval_cases hw : w / 2 ^ 80 <;> simp

theorem wr (addr : HostAddr) (data : Limb) : Statement (.wr addr data) := by
  refine ⟨rfl, ?_⟩
  have ha := addr.isLt
  have hd := data.isLt
  have hb := and_bit80 _ (packRequest 1#1 addr data).isLt
  rw [packRequest_toNat] at hb
  change (packRequest 1#1 addr data).toNat &&& 2 ^ 80 = 2 ^ 80
  rw [packRequest_toNat, hb]
  simp only [BitVec.toNat_ofNat]
  omega

theorem rd (addr : HostAddr) : Statement (.rd addr) := by
  refine ⟨rfl, ?_⟩
  have ha := addr.isLt
  have hb := and_bit80 _ (packRequest 0#1 addr 0#64).isLt
  rw [packRequest_toNat] at hb
  change (packRequest 0#1 addr 0#64).toNat &&& 2 ^ 80 = 0
  rw [packRequest_toNat, hb]
  simp only [BitVec.toNat_ofNat]
  omega

theorem mul : Statement .mul := ⟨rfl, rfl⟩

theorem add : Statement .add := ⟨rfl, rfl⟩

end Sys2Proof.Laws.MatchesTable
end

