-- ==== Sys2Proof/Laws/State.lean ====
section
/-! SUPPORT. The fields of every state update, one lemma each, true by definition. -/

namespace Sys2Proof.Machine

/-! ### `setLimb` -/

@[simp] theorem setLimb_cfg (s : State) (b : Buf) (t : Nat) (v : Limb) : (s.setLimb b t v).cfg = s.cfg := by cases b <;> rfl
@[simp] theorem setLimb_ph (s : State) (b : Buf) (t : Nat) (v : Limb) : (s.setLimb b t v).ph = s.ph := by cases b <;> rfl
@[simp] theorem setLimb_i (s : State) (b : Buf) (t : Nat) (v : Limb) : (s.setLimb b t v).i = s.i := by cases b <;> rfl
@[simp] theorem setLimb_j (s : State) (b : Buf) (t : Nat) (v : Limb) : (s.setLimb b t v).j = s.j := by cases b <;> rfl
@[simp] theorem setLimb_a (s : State) (b : Buf) (t : Nat) (v : Limb) : (s.setLimb b t v).a = s.a := by cases b <;> rfl
@[simp] theorem setLimb_c (s : State) (b : Buf) (t : Nat) (v : Limb) : (s.setLimb b t v).c = s.c := by cases b <;> rfl
@[simp] theorem setLimb_k (s : State) (b : Buf) (t : Nat) (v : Limb) : (s.setLimb b t v).k = s.k := by cases b <;> rfl
@[simp] theorem setLimb_cy (s : State) (b : Buf) (t : Nat) (v : Limb) : (s.setLimb b t v).cy = s.cy := by cases b <;> rfl
@[simp] theorem setLimb_err (s : State) (b : Buf) (t : Nat) (v : Limb) : (s.setLimb b t v).err = s.err := by cases b <;> rfl
@[simp] theorem setLimb_cause (s : State) (b : Buf) (t : Nat) (v : Limb) : (s.setLimb b t v).cause = s.cause := by cases b <;> rfl
@[simp] theorem setLimb_script (s : State) (b : Buf) (t : Nat) (v : Limb) : (s.setLimb b t v).script = s.script := by cases b <;> rfl
@[simp] theorem setLimb_rdata (s : State) (b : Buf) (t : Nat) (v : Limb) : (s.setLimb b t v).rdata = s.rdata := by cases b <;> rfl

/-! ### `flagError` -/

@[simp] theorem flagError_cfg (e : ErrorCause) (s : State) : (flagError e s).cfg = s.cfg := by unfold flagError; split <;> rfl
@[simp] theorem flagError_A (e : ErrorCause) (s : State) : (flagError e s).A = s.A := by unfold flagError; split <;> rfl
@[simp] theorem flagError_B (e : ErrorCause) (s : State) : (flagError e s).B = s.B := by unfold flagError; split <;> rfl
@[simp] theorem flagError_R (e : ErrorCause) (s : State) : (flagError e s).R = s.R := by unfold flagError; split <;> rfl
@[simp] theorem flagError_X (e : ErrorCause) (s : State) : (flagError e s).X = s.X := by unfold flagError; split <;> rfl
@[simp] theorem flagError_Y (e : ErrorCause) (s : State) : (flagError e s).Y = s.Y := by unfold flagError; split <;> rfl
@[simp] theorem flagError_ph (e : ErrorCause) (s : State) : (flagError e s).ph = s.ph := by unfold flagError; split <;> rfl
@[simp] theorem flagError_i (e : ErrorCause) (s : State) : (flagError e s).i = s.i := by unfold flagError; split <;> rfl
@[simp] theorem flagError_j (e : ErrorCause) (s : State) : (flagError e s).j = s.j := by unfold flagError; split <;> rfl
@[simp] theorem flagError_a (e : ErrorCause) (s : State) : (flagError e s).a = s.a := by unfold flagError; split <;> rfl
@[simp] theorem flagError_c (e : ErrorCause) (s : State) : (flagError e s).c = s.c := by unfold flagError; split <;> rfl
@[simp] theorem flagError_k (e : ErrorCause) (s : State) : (flagError e s).k = s.k := by unfold flagError; split <;> rfl
@[simp] theorem flagError_cy (e : ErrorCause) (s : State) : (flagError e s).cy = s.cy := by unfold flagError; split <;> rfl
@[simp] theorem flagError_script (e : ErrorCause) (s : State) : (flagError e s).script = s.script := by unfold flagError; split <;> rfl
@[simp] theorem flagError_rdata (e : ErrorCause) (s : State) : (flagError e s).rdata = s.rdata := by unfold flagError; split <;> rfl

/-! ### `resetEvent` -/

@[simp] theorem resetEvent_cfg (s : State) : (resetEvent s).cfg = s.cfg := rfl
@[simp] theorem resetEvent_A (s : State) : (resetEvent s).A = (State.resetOf s.cfg).A := rfl
@[simp] theorem resetEvent_B (s : State) : (resetEvent s).B = (State.resetOf s.cfg).B := rfl
@[simp] theorem resetEvent_R (s : State) : (resetEvent s).R = (State.resetOf s.cfg).R := rfl
@[simp] theorem resetEvent_X (s : State) : (resetEvent s).X = (State.resetOf s.cfg).X := rfl
@[simp] theorem resetEvent_Y (s : State) : (resetEvent s).Y = (State.resetOf s.cfg).Y := rfl
@[simp] theorem resetEvent_ph (s : State) : (resetEvent s).ph = (State.resetOf s.cfg).ph := rfl
@[simp] theorem resetEvent_i (s : State) : (resetEvent s).i = (State.resetOf s.cfg).i := rfl
@[simp] theorem resetEvent_j (s : State) : (resetEvent s).j = (State.resetOf s.cfg).j := rfl
@[simp] theorem resetEvent_a (s : State) : (resetEvent s).a = (State.resetOf s.cfg).a := rfl
@[simp] theorem resetEvent_c (s : State) : (resetEvent s).c = (State.resetOf s.cfg).c := rfl
@[simp] theorem resetEvent_k (s : State) : (resetEvent s).k = (State.resetOf s.cfg).k := rfl
@[simp] theorem resetEvent_cy (s : State) : (resetEvent s).cy = (State.resetOf s.cfg).cy := rfl
@[simp] theorem resetEvent_err (s : State) : (resetEvent s).err = (State.resetOf s.cfg).err := rfl
@[simp] theorem resetEvent_cause (s : State) : (resetEvent s).cause = (State.resetOf s.cfg).cause := rfl
@[simp] theorem resetEvent_script (s : State) : (resetEvent s).script = s.script := rfl
@[simp] theorem resetEvent_rdata (s : State) : (resetEvent s).rdata = s.rdata := rfl

/-! ### `startMul` -/

@[simp] theorem startMul_cfg (s : State) : (startMul s).cfg = s.cfg := rfl
@[simp] theorem startMul_A (s : State) : (startMul s).A = s.A := rfl
@[simp] theorem startMul_B (s : State) : (startMul s).B = s.B := rfl
@[simp] theorem startMul_R (s : State) : (startMul s).R = s.R := rfl
@[simp] theorem startMul_X (s : State) : (startMul s).X = s.X := rfl
@[simp] theorem startMul_Y (s : State) : (startMul s).Y = s.Y := rfl
@[simp] theorem startMul_ph (s : State) : (startMul s).ph = .mZero := rfl
@[simp] theorem startMul_i (s : State) : (startMul s).i = s.i := rfl
@[simp] theorem startMul_j (s : State) : (startMul s).j = s.j := rfl
@[simp] theorem startMul_a (s : State) : (startMul s).a = s.a := rfl
@[simp] theorem startMul_c (s : State) : (startMul s).c = s.c := rfl
@[simp] theorem startMul_k (s : State) : (startMul s).k = s.k := rfl
@[simp] theorem startMul_cy (s : State) : (startMul s).cy = s.cy := rfl
@[simp] theorem startMul_err (s : State) : (startMul s).err = s.err := rfl
@[simp] theorem startMul_cause (s : State) : (startMul s).cause = s.cause := rfl
@[simp] theorem startMul_script (s : State) : (startMul s).script = s.script := rfl
@[simp] theorem startMul_rdata (s : State) : (startMul s).rdata = s.rdata := rfl

/-! ### `startAdd` -/

@[simp] theorem startAdd_cfg (s : State) : (startAdd s).cfg = s.cfg := rfl
@[simp] theorem startAdd_A (s : State) : (startAdd s).A = s.A := rfl
@[simp] theorem startAdd_B (s : State) : (startAdd s).B = s.B := rfl
@[simp] theorem startAdd_R (s : State) : (startAdd s).R = s.R := rfl
@[simp] theorem startAdd_X (s : State) : (startAdd s).X = s.X := rfl
@[simp] theorem startAdd_Y (s : State) : (startAdd s).Y = s.Y := rfl
@[simp] theorem startAdd_ph (s : State) : (startAdd s).ph = .aStep := rfl
@[simp] theorem startAdd_i (s : State) : (startAdd s).i = s.i := rfl
@[simp] theorem startAdd_j (s : State) : (startAdd s).j = s.j := rfl
@[simp] theorem startAdd_a (s : State) : (startAdd s).a = s.a := rfl
@[simp] theorem startAdd_c (s : State) : (startAdd s).c = s.c := rfl
@[simp] theorem startAdd_k (s : State) : (startAdd s).k = 0 := rfl
@[simp] theorem startAdd_cy (s : State) : (startAdd s).cy = 0#1 := rfl
@[simp] theorem startAdd_err (s : State) : (startAdd s).err = s.err := rfl
@[simp] theorem startAdd_cause (s : State) : (startAdd s).cause = s.cause := rfl
@[simp] theorem startAdd_script (s : State) : (startAdd s).script = s.script := rfl
@[simp] theorem startAdd_rdata (s : State) : (startAdd s).rdata = s.rdata := rfl

/-! ### `mulZero`, the fields it does not write -/

@[simp] theorem mulZero_cfg (s : State) : (mulZero s).cfg = s.cfg := rfl
@[simp] theorem mulZero_A (s : State) : (mulZero s).A = s.A := rfl
@[simp] theorem mulZero_B (s : State) : (mulZero s).B = s.B := rfl
@[simp] theorem mulZero_X (s : State) : (mulZero s).X = s.X := rfl
@[simp] theorem mulZero_Y (s : State) : (mulZero s).Y = s.Y := rfl
@[simp] theorem mulZero_j (s : State) : (mulZero s).j = s.j := rfl
@[simp] theorem mulZero_a (s : State) : (mulZero s).a = s.a := rfl
@[simp] theorem mulZero_c (s : State) : (mulZero s).c = s.c := rfl
@[simp] theorem mulZero_k (s : State) : (mulZero s).k = s.k := rfl
@[simp] theorem mulZero_cy (s : State) : (mulZero s).cy = s.cy := rfl
@[simp] theorem mulZero_err (s : State) : (mulZero s).err = s.err := rfl
@[simp] theorem mulZero_cause (s : State) : (mulZero s).cause = s.cause := rfl
@[simp] theorem mulZero_script (s : State) : (mulZero s).script = s.script := rfl
@[simp] theorem mulZero_rdata (s : State) : (mulZero s).rdata = s.rdata := rfl

/-! ### `mulOuter`, the fields it does not write -/

@[simp] theorem mulOuter_cfg (s : State) : (mulOuter s).cfg = s.cfg := by unfold mulOuter; split <;> (try split) <;> rfl
@[simp] theorem mulOuter_A (s : State) : (mulOuter s).A = s.A := by unfold mulOuter; split <;> (try split) <;> rfl
@[simp] theorem mulOuter_B (s : State) : (mulOuter s).B = s.B := by unfold mulOuter; split <;> (try split) <;> rfl
@[simp] theorem mulOuter_R (s : State) : (mulOuter s).R = s.R := by unfold mulOuter; split <;> (try split) <;> rfl
@[simp] theorem mulOuter_X (s : State) : (mulOuter s).X = s.X := by unfold mulOuter; split <;> (try split) <;> rfl
@[simp] theorem mulOuter_Y (s : State) : (mulOuter s).Y = s.Y := by unfold mulOuter; split <;> (try split) <;> rfl
@[simp] theorem mulOuter_k (s : State) : (mulOuter s).k = s.k := by unfold mulOuter; split <;> (try split) <;> rfl
@[simp] theorem mulOuter_cy (s : State) : (mulOuter s).cy = s.cy := by unfold mulOuter; split <;> (try split) <;> rfl
@[simp] theorem mulOuter_err (s : State) : (mulOuter s).err = s.err := by unfold mulOuter; split <;> (try split) <;> rfl
@[simp] theorem mulOuter_cause (s : State) : (mulOuter s).cause = s.cause := by unfold mulOuter; split <;> (try split) <;> rfl
@[simp] theorem mulOuter_script (s : State) : (mulOuter s).script = s.script := by unfold mulOuter; split <;> (try split) <;> rfl
@[simp] theorem mulOuter_rdata (s : State) : (mulOuter s).rdata = s.rdata := by unfold mulOuter; split <;> (try split) <;> rfl

/-! ### `mulInner`, the fields it does not write -/

@[simp] theorem mulInner_cfg (s : State) : (mulInner s).cfg = s.cfg := rfl
@[simp] theorem mulInner_A (s : State) : (mulInner s).A = s.A := rfl
@[simp] theorem mulInner_B (s : State) : (mulInner s).B = s.B := rfl
@[simp] theorem mulInner_X (s : State) : (mulInner s).X = s.X := rfl
@[simp] theorem mulInner_Y (s : State) : (mulInner s).Y = s.Y := rfl
@[simp] theorem mulInner_i (s : State) : (mulInner s).i = s.i := rfl
@[simp] theorem mulInner_a (s : State) : (mulInner s).a = s.a := rfl
@[simp] theorem mulInner_k (s : State) : (mulInner s).k = s.k := rfl
@[simp] theorem mulInner_cy (s : State) : (mulInner s).cy = s.cy := rfl
@[simp] theorem mulInner_err (s : State) : (mulInner s).err = s.err := rfl
@[simp] theorem mulInner_cause (s : State) : (mulInner s).cause = s.cause := rfl
@[simp] theorem mulInner_script (s : State) : (mulInner s).script = s.script := rfl
@[simp] theorem mulInner_rdata (s : State) : (mulInner s).rdata = s.rdata := rfl

/-! ### `mulCarry`, the fields it does not write -/

@[simp] theorem mulCarry_cfg (s : State) : (mulCarry s).cfg = s.cfg := rfl
@[simp] theorem mulCarry_A (s : State) : (mulCarry s).A = s.A := rfl
@[simp] theorem mulCarry_B (s : State) : (mulCarry s).B = s.B := rfl
@[simp] theorem mulCarry_X (s : State) : (mulCarry s).X = s.X := rfl
@[simp] theorem mulCarry_Y (s : State) : (mulCarry s).Y = s.Y := rfl
@[simp] theorem mulCarry_j (s : State) : (mulCarry s).j = s.j := rfl
@[simp] theorem mulCarry_a (s : State) : (mulCarry s).a = s.a := rfl
@[simp] theorem mulCarry_c (s : State) : (mulCarry s).c = s.c := rfl
@[simp] theorem mulCarry_k (s : State) : (mulCarry s).k = s.k := rfl
@[simp] theorem mulCarry_cy (s : State) : (mulCarry s).cy = s.cy := rfl
@[simp] theorem mulCarry_err (s : State) : (mulCarry s).err = s.err := rfl
@[simp] theorem mulCarry_cause (s : State) : (mulCarry s).cause = s.cause := rfl
@[simp] theorem mulCarry_script (s : State) : (mulCarry s).script = s.script := rfl
@[simp] theorem mulCarry_rdata (s : State) : (mulCarry s).rdata = s.rdata := rfl

/-! ### `addStep`, the fields it does not write -/

@[simp] theorem addStep_cfg (s : State) : (addStep s).cfg = s.cfg := rfl
@[simp] theorem addStep_A (s : State) : (addStep s).A = s.A := rfl
@[simp] theorem addStep_B (s : State) : (addStep s).B = s.B := rfl
@[simp] theorem addStep_R (s : State) : (addStep s).R = s.R := rfl
@[simp] theorem addStep_Y (s : State) : (addStep s).Y = s.Y := rfl
@[simp] theorem addStep_i (s : State) : (addStep s).i = s.i := rfl
@[simp] theorem addStep_j (s : State) : (addStep s).j = s.j := rfl
@[simp] theorem addStep_a (s : State) : (addStep s).a = s.a := rfl
@[simp] theorem addStep_c (s : State) : (addStep s).c = s.c := rfl
@[simp] theorem addStep_err (s : State) : (addStep s).err = s.err := rfl
@[simp] theorem addStep_cause (s : State) : (addStep s).cause = s.cause := rfl
@[simp] theorem addStep_script (s : State) : (addStep s).script = s.script := rfl
@[simp] theorem addStep_rdata (s : State) : (addStep s).rdata = s.rdata := rfl

/-! ### `mulOuterNoSkip`, the fields it does not write -/

@[simp] theorem mulOuterNoSkip_cfg (s : State) : (mulOuterNoSkip s).cfg = s.cfg := by unfold mulOuterNoSkip; split <;> rfl
@[simp] theorem mulOuterNoSkip_A (s : State) : (mulOuterNoSkip s).A = s.A := by unfold mulOuterNoSkip; split <;> rfl
@[simp] theorem mulOuterNoSkip_B (s : State) : (mulOuterNoSkip s).B = s.B := by unfold mulOuterNoSkip; split <;> rfl
@[simp] theorem mulOuterNoSkip_R (s : State) : (mulOuterNoSkip s).R = s.R := by unfold mulOuterNoSkip; split <;> rfl
@[simp] theorem mulOuterNoSkip_X (s : State) : (mulOuterNoSkip s).X = s.X := by unfold mulOuterNoSkip; split <;> rfl
@[simp] theorem mulOuterNoSkip_Y (s : State) : (mulOuterNoSkip s).Y = s.Y := by unfold mulOuterNoSkip; split <;> rfl
@[simp] theorem mulOuterNoSkip_k (s : State) : (mulOuterNoSkip s).k = s.k := by unfold mulOuterNoSkip; split <;> rfl
@[simp] theorem mulOuterNoSkip_cy (s : State) : (mulOuterNoSkip s).cy = s.cy := by unfold mulOuterNoSkip; split <;> rfl
@[simp] theorem mulOuterNoSkip_err (s : State) : (mulOuterNoSkip s).err = s.err := by unfold mulOuterNoSkip; split <;> rfl
@[simp] theorem mulOuterNoSkip_cause (s : State) : (mulOuterNoSkip s).cause = s.cause := by unfold mulOuterNoSkip; split <;> rfl
@[simp] theorem mulOuterNoSkip_script (s : State) : (mulOuterNoSkip s).script = s.script := by unfold mulOuterNoSkip; split <;> rfl
@[simp] theorem mulOuterNoSkip_rdata (s : State) : (mulOuterNoSkip s).rdata = s.rdata := by unfold mulOuterNoSkip; split <;> rfl

/-! ### `microStep`, the fields it does not write -/

@[simp] theorem microStep_cfg (s : State) : (microStep s).cfg = s.cfg := by unfold microStep; split <;> simp
@[simp] theorem microStep_A (s : State) : (microStep s).A = s.A := by unfold microStep; split <;> simp
@[simp] theorem microStep_B (s : State) : (microStep s).B = s.B := by unfold microStep; split <;> simp
@[simp] theorem microStep_Y (s : State) : (microStep s).Y = s.Y := by unfold microStep; split <;> simp
@[simp] theorem microStep_err (s : State) : (microStep s).err = s.err := by unfold microStep; split <;> simp
@[simp] theorem microStep_cause (s : State) : (microStep s).cause = s.cause := by unfold microStep; split <;> simp
@[simp] theorem microStep_script (s : State) : (microStep s).script = s.script := by unfold microStep; split <;> simp
@[simp] theorem microStep_rdata (s : State) : (microStep s).rdata = s.rdata := by unfold microStep; split <;> simp

/-! ### `microStepNoSkip`, the fields it does not write -/

@[simp] theorem microStepNoSkip_cfg (s : State) : (microStepNoSkip s).cfg = s.cfg := by unfold microStepNoSkip; split <;> simp
@[simp] theorem microStepNoSkip_A (s : State) : (microStepNoSkip s).A = s.A := by unfold microStepNoSkip; split <;> simp
@[simp] theorem microStepNoSkip_B (s : State) : (microStepNoSkip s).B = s.B := by unfold microStepNoSkip; split <;> simp
@[simp] theorem microStepNoSkip_Y (s : State) : (microStepNoSkip s).Y = s.Y := by unfold microStepNoSkip; split <;> simp
@[simp] theorem microStepNoSkip_err (s : State) : (microStepNoSkip s).err = s.err := by unfold microStepNoSkip; split <;> simp
@[simp] theorem microStepNoSkip_cause (s : State) : (microStepNoSkip s).cause = s.cause := by unfold microStepNoSkip; split <;> simp
@[simp] theorem microStepNoSkip_script (s : State) : (microStepNoSkip s).script = s.script := by unfold microStepNoSkip; split <;> simp
@[simp] theorem microStepNoSkip_rdata (s : State) : (microStepNoSkip s).rdata = s.rdata := by unfold microStepNoSkip; split <;> simp

/-! ### Runs of micro-steps, the fields no micro-step writes -/

@[simp] theorem microSteps_cfg (n : Nat) (s : State) : (microSteps n s).cfg = s.cfg := by induction n generalizing s with
  | zero => rfl
  | succ n ih => simp [microSteps, ih]
@[simp] theorem microSteps_A (n : Nat) (s : State) : (microSteps n s).A = s.A := by induction n generalizing s with
  | zero => rfl
  | succ n ih => simp [microSteps, ih]
@[simp] theorem microSteps_B (n : Nat) (s : State) : (microSteps n s).B = s.B := by induction n generalizing s with
  | zero => rfl
  | succ n ih => simp [microSteps, ih]
@[simp] theorem microSteps_Y (n : Nat) (s : State) : (microSteps n s).Y = s.Y := by induction n generalizing s with
  | zero => rfl
  | succ n ih => simp [microSteps, ih]
@[simp] theorem microSteps_err (n : Nat) (s : State) : (microSteps n s).err = s.err := by induction n generalizing s with
  | zero => rfl
  | succ n ih => simp [microSteps, ih]
@[simp] theorem microSteps_cause (n : Nat) (s : State) : (microSteps n s).cause = s.cause := by induction n generalizing s with
  | zero => rfl
  | succ n ih => simp [microSteps, ih]
@[simp] theorem microSteps_script (n : Nat) (s : State) : (microSteps n s).script = s.script := by induction n generalizing s with
  | zero => rfl
  | succ n ih => simp [microSteps, ih]
@[simp] theorem microSteps_rdata (n : Nat) (s : State) : (microSteps n s).rdata = s.rdata := by induction n generalizing s with
  | zero => rfl
  | succ n ih => simp [microSteps, ih]
@[simp] theorem microStepsNoSkip_cfg (n : Nat) (s : State) : (microStepsNoSkip n s).cfg = s.cfg := by induction n generalizing s with
  | zero => rfl
  | succ n ih => simp [microStepsNoSkip, ih]
@[simp] theorem microStepsNoSkip_A (n : Nat) (s : State) : (microStepsNoSkip n s).A = s.A := by induction n generalizing s with
  | zero => rfl
  | succ n ih => simp [microStepsNoSkip, ih]
@[simp] theorem microStepsNoSkip_B (n : Nat) (s : State) : (microStepsNoSkip n s).B = s.B := by induction n generalizing s with
  | zero => rfl
  | succ n ih => simp [microStepsNoSkip, ih]
@[simp] theorem microStepsNoSkip_Y (n : Nat) (s : State) : (microStepsNoSkip n s).Y = s.Y := by induction n generalizing s with
  | zero => rfl
  | succ n ih => simp [microStepsNoSkip, ih]
@[simp] theorem microStepsNoSkip_err (n : Nat) (s : State) : (microStepsNoSkip n s).err = s.err := by induction n generalizing s with
  | zero => rfl
  | succ n ih => simp [microStepsNoSkip, ih]
@[simp] theorem microStepsNoSkip_cause (n : Nat) (s : State) : (microStepsNoSkip n s).cause = s.cause := by induction n generalizing s with
  | zero => rfl
  | succ n ih => simp [microStepsNoSkip, ih]
@[simp] theorem microStepsNoSkip_script (n : Nat) (s : State) : (microStepsNoSkip n s).script = s.script := by induction n generalizing s with
  | zero => rfl
  | succ n ih => simp [microStepsNoSkip, ih]
@[simp] theorem microStepsNoSkip_rdata (n : Nat) (s : State) : (microStepsNoSkip n s).rdata = s.rdata := by induction n generalizing s with
  | zero => rfl
  | succ n ih => simp [microStepsNoSkip, ih]
@[simp] theorem runToIdle_cfg (n : Nat) (s : State) : (runToIdle n s).cfg = s.cfg := by induction n generalizing s with
  | zero => rfl
  | succ n ih => unfold runToIdle; split <;> simp [ih]
@[simp] theorem runToIdle_A (n : Nat) (s : State) : (runToIdle n s).A = s.A := by induction n generalizing s with
  | zero => rfl
  | succ n ih => unfold runToIdle; split <;> simp [ih]
@[simp] theorem runToIdle_B (n : Nat) (s : State) : (runToIdle n s).B = s.B := by induction n generalizing s with
  | zero => rfl
  | succ n ih => unfold runToIdle; split <;> simp [ih]
@[simp] theorem runToIdle_Y (n : Nat) (s : State) : (runToIdle n s).Y = s.Y := by induction n generalizing s with
  | zero => rfl
  | succ n ih => unfold runToIdle; split <;> simp [ih]
@[simp] theorem runToIdle_err (n : Nat) (s : State) : (runToIdle n s).err = s.err := by induction n generalizing s with
  | zero => rfl
  | succ n ih => unfold runToIdle; split <;> simp [ih]
@[simp] theorem runToIdle_cause (n : Nat) (s : State) : (runToIdle n s).cause = s.cause := by induction n generalizing s with
  | zero => rfl
  | succ n ih => unfold runToIdle; split <;> simp [ih]
@[simp] theorem runToIdle_script (n : Nat) (s : State) : (runToIdle n s).script = s.script := by induction n generalizing s with
  | zero => rfl
  | succ n ih => unfold runToIdle; split <;> simp [ih]
@[simp] theorem runToIdle_rdata (n : Nat) (s : State) : (runToIdle n s).rdata = s.rdata := by induction n generalizing s with
  | zero => rfl
  | succ n ih => unfold runToIdle; split <;> simp [ih]
@[simp] theorem runMul_cfg (s : State) : (runMul s).cfg = s.cfg := by simp [runMul]
@[simp] theorem runAdd_cfg (s : State) : (runAdd s).cfg = s.cfg := by simp [runAdd]
@[simp] theorem runMul_A (s : State) : (runMul s).A = s.A := by simp [runMul]
@[simp] theorem runAdd_A (s : State) : (runAdd s).A = s.A := by simp [runAdd]
@[simp] theorem runMul_B (s : State) : (runMul s).B = s.B := by simp [runMul]
@[simp] theorem runAdd_B (s : State) : (runAdd s).B = s.B := by simp [runAdd]
@[simp] theorem runMul_Y (s : State) : (runMul s).Y = s.Y := by simp [runMul]
@[simp] theorem runAdd_Y (s : State) : (runAdd s).Y = s.Y := by simp [runAdd]
@[simp] theorem runMul_err (s : State) : (runMul s).err = s.err := by simp [runMul]
@[simp] theorem runAdd_err (s : State) : (runAdd s).err = s.err := by simp [runAdd]
@[simp] theorem runMul_cause (s : State) : (runMul s).cause = s.cause := by simp [runMul]
@[simp] theorem runAdd_cause (s : State) : (runAdd s).cause = s.cause := by simp [runAdd]
@[simp] theorem runMul_script (s : State) : (runMul s).script = s.script := by simp [runMul]
@[simp] theorem runAdd_script (s : State) : (runAdd s).script = s.script := by simp [runAdd]
@[simp] theorem runMul_rdata (s : State) : (runMul s).rdata = s.rdata := by simp [runMul]
@[simp] theorem runAdd_rdata (s : State) : (runAdd s).rdata = s.rdata := by simp [runAdd]

/-! ### The port's operations -/

@[simp] theorem writeCmd_cfg (d : Limb) (s : State) : (writeCmd d s).cfg = s.cfg := by unfold writeCmd; split <;> simp
@[simp] theorem memWrite_cfg (addr : HostAddr) (d : Limb) (s : State) : (memWrite addr d s).cfg = s.cfg := by unfold memWrite; split <;> simp
@[simp] theorem writeCmd_script (d : Limb) (s : State) : (writeCmd d s).script = s.script := by unfold writeCmd; split <;> simp
@[simp] theorem memWrite_script (addr : HostAddr) (d : Limb) (s : State) : (memWrite addr d s).script = s.script := by unfold memWrite; split <;> simp
@[simp] theorem writeCmd_rdata (d : Limb) (s : State) : (writeCmd d s).rdata = s.rdata := by unfold writeCmd; split <;> simp
@[simp] theorem memWrite_rdata (addr : HostAddr) (d : Limb) (s : State) : (memWrite addr d s).rdata = s.rdata := by unfold memWrite; split <;> simp
@[simp] theorem readEffect_cfg (addr : HostAddr) (s : State) : (readEffect addr s).cfg = s.cfg := by unfold readEffect; split <;> simp
@[simp] theorem readEffect_A (addr : HostAddr) (s : State) : (readEffect addr s).A = s.A := by unfold readEffect; split <;> simp
@[simp] theorem readEffect_B (addr : HostAddr) (s : State) : (readEffect addr s).B = s.B := by unfold readEffect; split <;> simp
@[simp] theorem readEffect_R (addr : HostAddr) (s : State) : (readEffect addr s).R = s.R := by unfold readEffect; split <;> simp
@[simp] theorem readEffect_X (addr : HostAddr) (s : State) : (readEffect addr s).X = s.X := by unfold readEffect; split <;> simp
@[simp] theorem readEffect_Y (addr : HostAddr) (s : State) : (readEffect addr s).Y = s.Y := by unfold readEffect; split <;> simp
@[simp] theorem readEffect_ph (addr : HostAddr) (s : State) : (readEffect addr s).ph = s.ph := by unfold readEffect; split <;> simp
@[simp] theorem readEffect_i (addr : HostAddr) (s : State) : (readEffect addr s).i = s.i := by unfold readEffect; split <;> simp
@[simp] theorem readEffect_j (addr : HostAddr) (s : State) : (readEffect addr s).j = s.j := by unfold readEffect; split <;> simp
@[simp] theorem readEffect_a (addr : HostAddr) (s : State) : (readEffect addr s).a = s.a := by unfold readEffect; split <;> simp
@[simp] theorem readEffect_c (addr : HostAddr) (s : State) : (readEffect addr s).c = s.c := by unfold readEffect; split <;> simp
@[simp] theorem readEffect_k (addr : HostAddr) (s : State) : (readEffect addr s).k = s.k := by unfold readEffect; split <;> simp
@[simp] theorem readEffect_cy (addr : HostAddr) (s : State) : (readEffect addr s).cy = s.cy := by unfold readEffect; split <;> simp
@[simp] theorem readEffect_script (addr : HostAddr) (s : State) : (readEffect addr s).script = s.script := by unfold readEffect; split <;> simp
@[simp] theorem readEffect_rdata (addr : HostAddr) (s : State) : (readEffect addr s).rdata = s.rdata := by unfold readEffect; split <;> simp
@[simp] theorem answerRead_cfg (addr : HostAddr) (s : State) : (answerRead addr s).cfg = s.cfg := by simp [answerRead]
@[simp] theorem answerRead_A (addr : HostAddr) (s : State) : (answerRead addr s).A = s.A := by simp [answerRead]
@[simp] theorem answerRead_B (addr : HostAddr) (s : State) : (answerRead addr s).B = s.B := by simp [answerRead]
@[simp] theorem answerRead_R (addr : HostAddr) (s : State) : (answerRead addr s).R = s.R := by simp [answerRead]
@[simp] theorem answerRead_X (addr : HostAddr) (s : State) : (answerRead addr s).X = s.X := by simp [answerRead]
@[simp] theorem answerRead_Y (addr : HostAddr) (s : State) : (answerRead addr s).Y = s.Y := by simp [answerRead]
@[simp] theorem answerRead_ph (addr : HostAddr) (s : State) : (answerRead addr s).ph = s.ph := by simp [answerRead]
@[simp] theorem answerRead_i (addr : HostAddr) (s : State) : (answerRead addr s).i = s.i := by simp [answerRead]
@[simp] theorem answerRead_j (addr : HostAddr) (s : State) : (answerRead addr s).j = s.j := by simp [answerRead]
@[simp] theorem answerRead_a (addr : HostAddr) (s : State) : (answerRead addr s).a = s.a := by simp [answerRead]
@[simp] theorem answerRead_c (addr : HostAddr) (s : State) : (answerRead addr s).c = s.c := by simp [answerRead]
@[simp] theorem answerRead_k (addr : HostAddr) (s : State) : (answerRead addr s).k = s.k := by simp [answerRead]
@[simp] theorem answerRead_cy (addr : HostAddr) (s : State) : (answerRead addr s).cy = s.cy := by simp [answerRead]
@[simp] theorem answerRead_script (addr : HostAddr) (s : State) : (answerRead addr s).script = s.script := by simp [answerRead]

end Sys2Proof.Machine
end

