-- ==== Sys2Proof/Laws/Sequencer.lean ====
section
/-! SUPPORT. What the sequencer can do: runs of micro-steps, the buffers' lengths, the carries' exactness. -/

namespace Sys2Proof.Machine

/-! ### Arithmetic of one micro-step -/

theorem mac_toNat (a b r c : Limb) : (mac a b r c).toNat = a.toNat * b.toNat + r.toNat + c.toNat := by
  have ha : a.toNat ≤ 2 ^ 64 - 1 := Nat.le_pred_of_lt a.isLt
  have hb : b.toNat ≤ 2 ^ 64 - 1 := Nat.le_pred_of_lt b.isLt
  have hm : a.toNat * b.toNat ≤ (2 ^ 64 - 1) * (2 ^ 64 - 1) := Nat.mul_le_mul ha hb
  have hr := r.isLt
  have hc := c.isLt
  rw [mac, BitVec.toNat_ofNat, Nat.mod_eq_of_lt]
  omega

theorem hi_lo (t : BitVec 128) : (lo t).toNat + (hi t).toNat * 2 ^ 64 = t.toNat := by
  have ht := t.isLt
  simp only [lo, hi, BitVec.extractLsb'_toNat, Nat.shiftRight_eq_div_pow]
  omega

theorem addWide_toNat (x y : Limb) (cy : BitVec 1) :
    (addWide x y cy).toNat = x.toNat + y.toNat + cy.toNat := by
  have hx := x.isLt
  have hy := y.isLt
  have hc := cy.isLt
  rw [addWide, BitVec.toNat_ofNat, Nat.mod_eq_of_lt]
  omega

theorem sumLimb_carryOut (s : BitVec 65) : (sumLimb s).toNat + (carryOut s).toNat * 2 ^ 64 = s.toNat := by
  have hs := s.isLt
  simp only [sumLimb, carryOut, BitVec.extractLsb'_toNat, Nat.shiftRight_eq_div_pow]
  omega

/-! ### Runs of micro-steps -/

@[simp] theorem microStep_of_idle {s : State} (h : s.ph = .idle) : microStep s = s := by
  unfold microStep; rw [h]

@[simp] theorem microSteps_of_idle (n : Nat) {s : State} (h : s.ph = .idle) : microSteps n s = s := by
  induction n with
  | zero => rfl
  | succ n ih => rw [microSteps, microStep_of_idle h, ih]

theorem microSteps_add (m n : Nat) (s : State) : microSteps (m + n) s = microSteps n (microSteps m s) := by
  induction m generalizing s with
  | zero => simp [microSteps]
  | succ m ih => rw [Nat.succ_add, microSteps, ih, microSteps]

/-- A run of micro-steps, split before its last. -/
theorem microSteps_succ_last (n : Nat) (s : State) : microSteps (n + 1) s = microStep (microSteps n s) := by
  rw [microSteps_add]; rfl

/-- Running to `IDLE` is running the bound out: an idle block does nothing. -/
theorem runToIdle_eq_microSteps (n : Nat) (s : State) : runToIdle n s = microSteps n s := by
  induction n generalizing s with
  | zero => rfl
  | succ n ih =>
    unfold runToIdle
    split
    · rw [microSteps_of_idle _ ‹_›]
    · rw [ih, microSteps]

/-- What every micro-step keeps holds after any number of them. -/
theorem microSteps_keep {P : State → Prop} (hstep : ∀ s, P s → P (microStep s)) (n : Nat) {s : State} (h : P s) :
    P (microSteps n s) := by
  induction n generalizing s with
  | zero => exact h
  | succ n ih => exact ih (hstep s h)

/-- Once idle within `m` micro-steps, the run to `IDLE` with any larger bound stops there. -/
theorem runToIdle_eq_of_idle {m n : Nat} {s : State} (hmn : m ≤ n) (h : (microSteps m s).ph = .idle) :
    runToIdle n s = microSteps m s := by
  obtain ⟨d, rfl⟩ := Nat.exists_eq_add_of_le hmn
  rw [runToIdle_eq_microSteps, microSteps_add, microSteps_of_idle _ h]

/-! ### The buffers keep their lengths -/

theorem microStep_wf {s : State} (h : Memory.wf s) : Memory.wf (microStep s) := by
  obtain ⟨hA, hB, hR, hX, hY⟩ := h
  refine ⟨by simpa, by simpa, ?_, ?_, by simpa⟩
  · unfold microStep; split <;> simp [mulZero, mulInner, mulCarry, hR]
  · unfold microStep; split <;> simp [addStep, hX]

theorem microSteps_wf (n : Nat) {s : State} (h : Memory.wf s) : Memory.wf (microSteps n s) :=
  microSteps_keep (P := Memory.wf) (fun _ h => microStep_wf h) n h

theorem startMul_wf {s : State} (h : Memory.wf s) : Memory.wf (startMul s) := h

theorem startAdd_wf {s : State} (h : Memory.wf s) : Memory.wf (startAdd s) := h

theorem runMul_wf {s : State} (h : Memory.wf s) : Memory.wf (runMul s) := by
  rw [runMul, runToIdle_eq_microSteps]; exact microSteps_wf _ h

theorem runAdd_wf {s : State} (h : Memory.wf s) : Memory.wf (runAdd s) := by
  rw [runAdd, runToIdle_eq_microSteps]; exact microSteps_wf _ h

end Sys2Proof.Machine
end

