-- ==== Sys2Proof/Laws/Port.lean ====
section
/-! SUPPORT. What the port can do: its guard, the address map, `MemWrite`, `MemRead`, `exec` and `step`, each once. -/

namespace Sys2Proof.Machine

/-! ### The guard -/

theorem atPort_of_ready {s : State} (h : Ready s) (act : State → State) : atPort s act = .next (act s) := by
  simp [atPort, h.1, h.2.1, h.2.2]

theorem atPort_next {s t : State} {act : State → State} (h : atPort s act = .next t) : Ready s ∧ t = act s := by
  unfold atPort at h
  split at h
  · cases h
  · split at h
    · cases h
    · split at h
      · cases h
      · refine ⟨⟨?_, ?_, ?_⟩, ?_⟩
        · exact not_not.mp ‹_›
        · exact not_not.mp ‹_›
        · exact not_not.mp ‹_›
        · cases h; rfl

/-- Everything `exec` can answer as a next state. -/
theorem exec_next {i : Instr} {s t : State} (h : exec i s = .next t) :
    Ready s ∧
    ((∃ addr d, i = .wr addr d ∧ t = memWrite addr d s) ∨ (∃ addr, i = .rd addr ∧ t = answerRead addr s) ∨
      (i = .mul ∧ t = runMul s) ∨ (i = .add ∧ t = runAdd s)) := by
  cases i with
  | wr addr d => obtain ⟨hr, ht⟩ := atPort_next h; exact ⟨hr, .inl ⟨addr, d, rfl, ht⟩⟩
  | rd addr => obtain ⟨hr, ht⟩ := atPort_next h; exact ⟨hr, .inr (.inl ⟨addr, rfl, ht⟩)⟩
  | mul => obtain ⟨hr, ht⟩ := atPort_next h; exact ⟨hr, .inr (.inr (.inl ⟨rfl, ht⟩))⟩
  | add => obtain ⟨hr, ht⟩ := atPort_next h; exact ⟨hr, .inr (.inr (.inr ⟨rfl, ht⟩))⟩

theorem exec_wr_of_ready {s : State} (h : Ready s) (addr : HostAddr) (d : Limb) :
    exec (.wr addr d) s = .next (memWrite addr d s) := atPort_of_ready h _

theorem exec_rd_of_ready {s : State} (h : Ready s) (addr : HostAddr) :
    exec (.rd addr) s = .next (answerRead addr s) := atPort_of_ready h _

theorem exec_mul_of_ready {s : State} (h : Ready s) : exec .mul s = .next (runMul s) := atPort_of_ready h _

theorem exec_add_of_ready {s : State} (h : Ready s) : exec .add s = .next (runAdd s) := atPort_of_ready h _

/-! ### The address map -/

/-- An address is its two fields (R51). -/
theorem addr_toNat (addr : HostAddr) :
    addr.toNat = (region addr).toNat * 4096 + (index addr).toNat := by
  have h := addr.isLt
  simp only [region, index, BitVec.extractLsb'_toNat, Nat.shiftRight_eq_div_pow]
  omega

theorem addr_eq_of_fields {x y : HostAddr} (hr : region x = region y) (hi : index x = index y) : x = y := by
  apply BitVec.eq_of_toNat_eq
  rw [addr_toNat x, addr_toNat y, hr, hi]

@[simp] theorem region_limbAddr (b : Buf) (t : Nat) : region (limbAddr b t) = bufRegion b := by
  have ht : (BitVec.ofNat 12 t).toNat < 4096 := (BitVec.ofNat 12 t).isLt
  apply BitVec.eq_of_toNat_eq
  have hb := (bufRegion b).isLt
  simp only [region, limbAddr, BitVec.extractLsb'_toNat, BitVec.toNat_append, Nat.shiftRight_eq_div_pow]
  rw [← Nat.shiftLeft_add_eq_or_of_lt (BitVec.ofNat 12 t).isLt, Nat.shiftLeft_eq]
  omega

@[simp] theorem index_limbAddr (b : Buf) (t : Nat) : index (limbAddr b t) = BitVec.ofNat 12 t := by
  have ht : (BitVec.ofNat 12 t).toNat < 4096 := (BitVec.ofNat 12 t).isLt
  apply BitVec.eq_of_toNat_eq
  simp only [index, limbAddr, BitVec.extractLsb'_toNat, BitVec.toNat_append, Nat.shiftRight_eq_div_pow]
  rw [← Nat.shiftLeft_add_eq_or_of_lt (BitVec.ofNat 12 t).isLt, Nat.shiftLeft_eq]
  omega

theorem bufLen_le {cfg : Config} (h : cfg.wf) (b : Buf) : bufLen cfg b ≤ 4096 := by
  obtain ⟨⟨h1, h2⟩, h3, h4⟩ := h
  cases b <;> simp only [bufLen] <;> omega

theorem windowLimb_some {cfg : Config} {b : Buf} {t : Nat} {l : Location} (h : windowLimb cfg b t = some l) :
    t < bufLen cfg b ∧ l = .limb b t := by
  unfold windowLimb at h
  split at h
  · exact ⟨‹_›, by simpa using h.symm⟩
  · cases h

/-- A limb the map names lies inside its buffer, and its address is the one the assembler writes. -/
theorem locate_limb {cfg : Config} {addr : HostAddr} {b : Buf} {t : Nat}
    (h : locate cfg addr = some (.limb b t)) :
    t < bufLen cfg b ∧ region addr = bufRegion b ∧ t = (index addr).toNat := by
  simp only [locate] at h
  split at h
  · simp only [controlLocation] at h
    repeat' split at h
    all_goals cases h
  all_goals repeat' split at h
  all_goals first
    | cases h
    | (obtain ⟨hlt, he⟩ := windowLimb_some h
       cases he
       exact ⟨hlt, ‹_›, rfl⟩)

theorem locate_limb_addr {cfg : Config} {addr : HostAddr} {b : Buf} {t : Nat}
    (h : locate cfg addr = some (.limb b t)) : addr = limbAddr b t := by
  obtain ⟨-, hr, rfl⟩ := locate_limb h
  exact addr_eq_of_fields (by rw [hr, region_limbAddr]) (by rw [index_limbAddr, BitVec.ofNat_toNat, BitVec.setWidth_eq])

/-- Every limb of every buffer is mapped at its window's address. -/
theorem locate_limbAddr {cfg : Config} (hw : cfg.wf) {b : Buf} {t : Nat} (h : t < bufLen cfg b) :
    locate cfg (limbAddr b t) = some (.limb b t) := by
  have hl := bufLen_le hw b
  have ht : (BitVec.ofNat 12 t).toNat = t := by
    rw [BitVec.toNat_ofNat, Nat.mod_eq_of_lt]; omega
  unfold locate
  rw [region_limbAddr, index_limbAddr, ht]
  cases b <;> simp [bufRegion, windowLimb, h]

@[simp] theorem locate_cmd (cfg : Config) : locate cfg 0x0000#16 = some .cmd := rfl

theorem controlLocation_cmd {t : Nat} (h : controlLocation t = some .cmd) : t = 0 := by
  unfold controlLocation at h
  repeat' split at h
  all_goals first | assumption | cases h

/-- Only address `0x0000` is `CMD`. -/
theorem locate_eq_cmd {cfg : Config} {addr : HostAddr} (h : locate cfg addr = some .cmd) : addr = 0x0000#16 := by
  unfold locate at h
  simp only at h
  split at h
  · have hz := controlLocation_cmd h
    exact addr_eq_of_fields (by rw [‹region addr = _›]; rfl) (BitVec.eq_of_toNat_eq hz)
  all_goals repeat' split at h
  all_goals first
    | cases h
    | (obtain ⟨-, he⟩ := windowLimb_some h
       cases he)

/-! ### Writes and reads keep the buffers' lengths -/

theorem setLimb_wf {s : State} (h : Memory.wf s) (b : Buf) (t : Nat) (v : Limb) : Memory.wf (s.setLimb b t v) := by
  obtain ⟨hA, hB, hR, hX, hY⟩ := h
  cases b <;> simp [State.setLimb, Memory.wf, hA, hB, hR, hX, hY]

theorem flagError_wf {s : State} (h : Memory.wf s) (e : ErrorCause) : Memory.wf (flagError e s) := by
  simpa [Memory.wf] using h

theorem resetOf_wf (cfg : Config) : Memory.wf (State.resetOf cfg) := by
  simp [Memory.wf, State.resetOf]

theorem resetEvent_wf (s : State) : Memory.wf (resetEvent s) := by
  simp [Memory.wf, resetEvent, State.resetOf]

theorem writeCmd_wf {s : State} (h : Memory.wf s) (d : Limb) : Memory.wf (writeCmd d s) := by
  unfold writeCmd
  split
  · exact runMul_wf h
  · exact runAdd_wf h
  · exact flagError_wf h _

theorem memWrite_wf {s : State} (h : Memory.wf s) (addr : HostAddr) (d : Limb) : Memory.wf (memWrite addr d s) := by
  unfold memWrite
  split
  · exact writeCmd_wf h d
  all_goals first | exact flagError_wf h _ | exact setLimb_wf h _ _ _

theorem answerRead_wf {s : State} (h : Memory.wf s) (addr : HostAddr) : Memory.wf (answerRead addr s) := by
  simpa [Memory.wf] using h

/-- Every instruction keeps the buffers' lengths. -/
theorem exec_wf {i : Instr} {s t : State} (h : exec i s = .next t) : Memory.wf t := by
  obtain ⟨hr, ⟨addr, d, -, rfl⟩ | ⟨addr, -, rfl⟩ | ⟨-, rfl⟩ | ⟨-, rfl⟩⟩ := exec_next h
  · exact memWrite_wf hr.2.1 _ _
  · exact answerRead_wf hr.2.1 _
  · exact runMul_wf hr.2.1
  · exact runAdd_wf hr.2.1

/-! ### A step -/

theorem resume_next {s t : State} (h : resume s = .next t) : t = microStep s := by
  unfold resume at h
  split at h
  · cases h
  · split at h
    · cases h
    · cases h; rfl

@[simp] theorem cutCommand_cfg (cw : CommandWord) (n : Nat) (s : State) : (cutCommand cw n s).cfg = s.cfg := by
  unfold cutCommand; split
  · rename_i c _; cases c <;> simp [startCommand]
  · simp

@[simp] theorem cutCommand_script (cw : CommandWord) (n : Nat) (s : State) :
    (cutCommand cw n s).script = s.script := by
  unfold cutCommand; split
  · rename_i c _; cases c <;> simp [startCommand]
  · simp

@[simp] theorem cutCommand_rdata (cw : CommandWord) (n : Nat) (s : State) :
    (cutCommand cw n s).rdata = s.rdata := by
  unfold cutCommand; split
  · rename_i c _; cases c <;> simp [startCommand]
  · simp

/-- Everything a step can answer as a next state. -/
theorem step_next {s t : State} (h : step s = .next t) :
    (s.script = [] ∧ s.ph = .idle ∧ t = s) ∨
    (∃ req rest, s.script = .request req :: rest ∧ s.ph = .idle ∧
      exec (decodeRequest req) { s with script := rest } = .next t) ∨
    (∃ rest, s.script = .reset :: rest ∧ t = resetEvent { s with script := rest }) ∨
    (∃ cw n rest, s.script = .resetDuring cw n :: rest ∧ s.ph = .idle ∧
      t = resetEvent (cutCommand cw n { s with script := rest })) ∨
    (s.ph ≠ .idle ∧ (∀ rest, s.script ≠ .reset :: rest) ∧ t = microStep s) := by
  unfold step at h
  split at h
  · rename_i rest he
    exact .inr (.inr (.inl ⟨rest, he, by simpa using h.symm⟩))
  · rename_i hno
    split at h
    · rename_i hid
      unfold serve at h
      split at h
      · rename_i he; exact .inl ⟨he, hid, by simpa using h.symm⟩
      · rename_i req rest he; exact .inr (.inl ⟨req, rest, he, hid, h⟩)
      · rename_i rest he; exact absurd he (hno rest)
      · rename_i cw n rest he
        exact .inr (.inr (.inr (.inl ⟨cw, n, rest, he, hid, by simpa using h.symm⟩)))
    · rename_i hid
      exact .inr (.inr (.inr (.inr ⟨hid, hno, resume_next h⟩)))

end Sys2Proof.Machine
end

