-- ==== Sys2Proof/Laws/Run.lean ====
section
/-! SUPPORT. States compared field by field, what every instruction keeps, and runs taken apart. -/

namespace Sys2Proof.Machine

/-- Two states that agree on every field are one state. -/
theorem state_ext {s t : State} (hcfg : s.cfg = t.cfg) (hA : s.A = t.A) (hB : s.B = t.B) (hR : s.R = t.R)
    (hX : s.X = t.X) (hY : s.Y = t.Y) (hph : s.ph = t.ph) (hi : s.i = t.i) (hj : s.j = t.j) (ha : s.a = t.a)
    (hc : s.c = t.c) (hk : s.k = t.k) (hcy : s.cy = t.cy) (herr : s.err = t.err) (hcause : s.cause = t.cause)
    (hscript : s.script = t.script) (hrdata : s.rdata = t.rdata) : s = t := by
  cases s; cases t; simp_all

/-- No instruction changes the widths or the host's script (R35). -/
theorem exec_cfg_script {i : Instr} {s t : State} (h : exec i s = .next t) :
    t.cfg = s.cfg ∧ t.script = s.script := by
  obtain ⟨-, ⟨addr, d, -, rfl⟩ | ⟨addr, -, rfl⟩ | ⟨-, rfl⟩ | ⟨-, rfl⟩⟩ := exec_next h <;> simp

/-- The memory's canonical form holds right after reset. -/
theorem reset_wf : Memory.wf State.reset := resetOf_wf _

/-- Every step keeps the buffers' lengths: the memory's canonical form. -/
theorem step_wf {s t : State} (hw : Memory.wf s) (h : step s = .next t) : Memory.wf t := by
  obtain ⟨-, -, rfl⟩ | ⟨req, rest, -, -, he⟩ | ⟨rest, -, rfl⟩ | ⟨cw, n, rest, -, -, rfl⟩ | ⟨-, -, rfl⟩ := step_next h
  · exact hw
  · exact exec_wf he
  · exact resetEvent_wf _
  · exact resetEvent_wf _
  · exact microStep_wf hw

theorem run_zero (s : State) : run 0 s = .next s := rfl

/-- A run begins with its first step. -/
theorem run_succ_of_step (n : Nat) {s t : State} (h : step s = .next t) : run (n + 1) s = run n t := by
  rw [run, h]

/-- A run that ends in a next state went through the next state of its first step. -/
theorem run_succ_next {n : Nat} {s t : State} (h : run (n + 1) s = .next t) :
    ∃ u, step s = .next u ∧ run n u = .next t := by
  rw [run] at h
  cases hs : step s with
  | next u => rw [hs] at h; exact ⟨u, rfl, h⟩
  | fault r => cases r
  | refused r => rw [hs] at h; cases h

/-- A run of `m + n` steps is a run of `n` steps from where `m` steps led. -/
theorem run_add {m n : Nat} {s t : State} (h : run m s = .next t) : run (m + n) s = run n t := by
  induction m generalizing s with
  | zero => cases h; rw [Nat.zero_add]
  | succ m ih =>
    obtain ⟨u, hu, hr⟩ := run_succ_next h
    rw [Nat.succ_add, run_succ_of_step _ hu, ih hr]

/-- The run of `Safety.lean` is the host's own run of the model's core. -/
theorem run_eq_core_run (n : Nat) (s : State) : run n s = Host.Core.run Sys2Proof.core n s := by
  induction n generalizing s with
  | zero => rfl
  | succ n ih =>
    have e := Host.Core.run.eq_2 Sys2Proof.core s n
    have hs : Host.Core.step Sys2Proof.core s = step s := rfl
    rw [run, e, hs]
    cases step s with
    | next u => exact ih u
    | fault r => rfl
    | refused r => rfl

end Sys2Proof.Machine
end

