-- ==== Sys2Proof/Laws/Values.lean ====
section
/-! SUPPORT. The arithmetic of buffers: `val`, `limbs`, `readLimb`, `lowVal`. -/

namespace Sys2Proof.Machine

@[simp] theorem val_nil : val [] = 0 := rfl

@[simp] theorem val_cons (d : Limb) (ds : List Limb) : val (d :: ds) = d.toNat + 2 ^ 64 * val ds := rfl

@[simp] theorem limbs_zero (v : Nat) : limbs 0 v = [] := rfl

@[simp] theorem limbs_succ (n v : Nat) :
    limbs (n + 1) v = BitVec.ofNat 64 v :: limbs n (v / 2 ^ 64) := rfl

@[simp] theorem length_limbs_eq (n v : Nat) : (limbs n v).length = n := by
  induction n generalizing v with
  | zero => rfl
  | succ n ih => simp [ih]

theorem pow_limb_succ (n : Nat) : 2 ^ (64 * (n + 1)) = 2 ^ 64 * 2 ^ (64 * n) := by
  rw [← Nat.pow_add]; congr 1; omega

theorem val_lt_pow (d : List Limb) : val d < 2 ^ (64 * d.length) := by
  induction d with
  | nil => simp
  | cons x d ih =>
    have hx := x.isLt
    rw [List.length_cons, pow_limb_succ, val_cons]
    have : 2 ^ 64 * (val d + 1) ≤ 2 ^ 64 * 2 ^ (64 * d.length) := Nat.mul_le_mul_left _ ih
    omega

theorem val_limbs_mod (n v : Nat) : val (limbs n v) = v % 2 ^ (64 * n) := by
  induction n generalizing v with
  | zero => simp [Nat.mod_one]
  | succ n ih =>
    rw [limbs_succ, val_cons, ih, pow_limb_succ, Nat.mod_mul, BitVec.toNat_ofNat]

theorem limbs_of_val (d : List Limb) : limbs d.length (val d) = d := by
  induction d with
  | nil => rfl
  | cons x d ih =>
    have hx := x.isLt
    rw [List.length_cons, limbs_succ, val_cons]
    have h1 : (x.toNat + 2 ^ 64 * val d) / 2 ^ 64 = val d := by omega
    have h2 : BitVec.ofNat 64 (x.toNat + 2 ^ 64 * val d) = x := by
      apply BitVec.eq_of_toNat_eq
      rw [BitVec.toNat_ofNat]; omega
    rw [h1, h2, ih]

/-- Buffers of one length that hold one number are equal. -/
theorem eq_of_val_eq {d e : List Limb} (hl : d.length = e.length) (hv : val d = val e) : d = e := by
  rw [← limbs_of_val d, ← limbs_of_val e, hl, hv]

theorem eq_limbs_of_val {d : List Limb} {n v : Nat} (hl : d.length = n) (hv : val d = v) : d = limbs n v := by
  rw [← limbs_of_val d, hl, hv]

@[simp] theorem val_replicate_zero (n : Nat) : val (List.replicate n 0#64) = 0 := by
  induction n with
  | zero => rfl
  | succ n ih => simp [List.replicate_succ, ih]

theorem val_append (d e : List Limb) : val (d ++ e) = val d + 2 ^ (64 * d.length) * val e := by
  induction d with
  | nil => simp
  | cons x d ih =>
    rw [List.cons_append, val_cons, ih, List.length_cons, pow_limb_succ, val_cons]
    ring

@[simp] theorem readLimb_replicate_zero (n t : Nat) : readLimb (List.replicate n 0#64) t = 0#64 := by
  simp [readLimb, List.getElem?_replicate]
  split <;> simp

theorem readLimb_set_self {d : List Limb} {t : Nat} (h : t < d.length) (v : Limb) :
    readLimb (d.set t v) t = v := by
  simp [readLimb, h]

theorem readLimb_set_ne {d : List Limb} {t u : Nat} (h : t ≠ u) (v : Limb) :
    readLimb (d.set t v) u = readLimb d u := by
  simp [readLimb, h]

/-- Writing one limb moves the value by the difference of the limbs at that weight. -/
theorem val_set {d : List Limb} {t : Nat} (h : t < d.length) (v : Limb) :
    val (d.set t v) + (readLimb d t).toNat * 2 ^ (64 * t) = val d + v.toNat * 2 ^ (64 * t) := by
  induction d generalizing t with
  | nil => simp at h
  | cons x d ih =>
    cases t with
    | zero => simp [readLimb]; omega
    | succ t =>
      have ih' := ih (t := t) (by simpa using h)
      have hr : readLimb (x :: d) (t + 1) = readLimb d t := by simp [readLimb]
      rw [List.set_cons_succ, val_cons, val_cons, hr, pow_limb_succ]
      linear_combination 2 ^ 64 * ih'

@[simp] theorem lowVal_zero (d : List Limb) : lowVal d 0 = 0 := by simp [lowVal]

theorem lowVal_of_length_le {d : List Limb} {n : Nat} (h : d.length ≤ n) : lowVal d n = val d := by
  simp [lowVal, List.take_of_length_le h]

theorem lowVal_succ {d : List Limb} {n : Nat} (h : n < d.length) :
    lowVal d (n + 1) = lowVal d n + (readLimb d n).toNat * 2 ^ (64 * n) := by
  have hr : readLimb d n = d[n] := by simp [readLimb, h]
  have ht : d.take (n + 1) = d.take n ++ [d[n]] := by simp
  rw [lowVal, ht, val_append, List.length_take, Nat.min_eq_left (Nat.le_of_lt h), hr]
  simp [lowVal, Nat.mul_comm]

theorem lowVal_lt (d : List Limb) (n : Nat) : lowVal d n < 2 ^ (64 * n) :=
  lt_of_lt_of_le (val_lt_pow _) (Nat.pow_le_pow_right (by omega) (by simp))

/-- Writing at or above index `n` leaves the low `n` limbs. -/
theorem lowVal_set_of_le {d : List Limb} {n t : Nat} (h : n ≤ t) (v : Limb) :
    lowVal (d.set t v) n = lowVal d n := by
  rw [lowVal, lowVal, List.take_set_of_le h]

end Sys2Proof.Machine
end

