-- ==== Sys2Proof/Tests/Slice0.lean ====
section
/-! SUPPORT. The model's own tests. Expected values come from 95_test_vectors.md and 30_encoding.md R80. -/

namespace Sys2Proof.Machine.Tests

/-- The next state of an outcome. -/
def after : Host.Outcome State Fault Refusal → Option State
  | .next t => some t
  | .fault _ => none
  | .refused _ => none

/-- One field of the next state of an outcome. -/
def field {α : Type} (f : State → α) (o : Host.Outcome State Fault Refusal) : Option α := (after o).map f

/-- The refusal of an outcome. -/
def refusal : Host.Outcome State Fault Refusal → Option Refusal
  | .refused r => some r
  | .next _ => none
  | .fault _ => none

/-- All ones, `M` of 95_test_vectors.md. -/
abbrev M : Limb := 0xFFFFFFFFFFFFFFFF#64

/-- A block of configuration `(2, 2)` with given operands, its `R` dirty. -/
def block (A B X Y : List Limb) : State :=
  { State.resetOf ⟨2, 2⟩ with A := A, B := B, R := [7, 7, 7, 7], X := X, Y := Y }

/-- The block most tests start from. -/
def s2 : State := block [3, 5] [7, M] [M, 0] [1, 0]

/-- The same block with the host's script. -/
def s2With (script : List HostEvent) : State := { s2 with script := script }

/-! ### Well-formedness: for each check an ill-formed term that it refuses -/

theorem test_wf_width_zero : ¬ Config.wf ⟨0, 1⟩ ∧ ¬ Config.wf ⟨1, 0⟩ := by decide
theorem test_wf_width_too_large : ¬ Config.wf ⟨2049, 1⟩ ∧ ¬ Config.wf ⟨1, 4097⟩ := by decide
theorem test_wf_reference : Config.reference.wf := by decide
theorem test_wf_request_bit81 : ¬ isPortWord (2 ^ 81) ∧ isPortWord (2 ^ 81 - 1) := by decide
theorem test_wf_command_bit64 : ¬ isCommandWord (2 ^ 64) ∧ isCommandWord (2 ^ 64 - 1) := by decide
theorem test_wf_address_number :
    AddrOperand.wf (.number (2 ^ 16)) = false ∧ AddrOperand.wf (.number (2 ^ 16 - 1)) = true := by decide
theorem test_wf_address_index :
    AddrOperand.wf (.symbol (.limb .A 4096)) = false ∧ AddrOperand.wf (.symbol (.limb .A 4095)) = true := by decide
theorem test_wf_data : Statement.wf (.wr (.number 0) (2 ^ 64)) = false := by decide
theorem test_wf_write_address : Statement.wf (.wr (.number (2 ^ 16)) 0) = false := by decide
theorem test_wf_read_address : Statement.wf (.rd (.number (2 ^ 16))) = false := by decide
theorem test_wf_fill_read_only : Statement.wf (.fill .R [1]) = false ∧ Statement.wf (.fill .A [1]) = true := by decide
theorem test_wf_fill_value : Statement.wf (.fill .A [2 ^ 64]) = false := by decide
theorem test_wf_fill_length : Statement.wf (.fill .A (List.replicate 4097 0)) = false := by decide +kernel
theorem test_wf_memory : ¬ Memory.wf { s2 with A := [3] } ∧ Memory.wf s2 ∧ Memory.wf State.reset := by decide

/-! ### Decoding: words written out from R71, R72 and R80 -/

/-- R80: `we = 1`, `addr = 0x1001`, `wdata = 0xFF`; the bits one field after another. -/
theorem test_decode_wr : decode (.port 0x1100100000000000000FF#81) = .ok (.wr 0x1001#16 0xFF#64) ∧
    decode (.port (0b1#1 ++ 0b0001000000000001#16 ++ 0xFF#64)) = .ok (.wr 0x1001#16 0xFF#64) := by decide
theorem test_decode_rd : decode (.port 0x030030000000000000000#81) = .ok (.rd 0x3003#16) := by decide
/-- R71: the `wdata` of a read is ignored. -/
theorem test_decode_rd_junk : decode (.port 0x03003DEADBEEFCAFEBABE#81) = .ok (.rd 0x3003#16) := by decide
theorem test_decode_mul : decode (.cmd 0x0000000000000001#64) = .ok .mul := by decide
theorem test_decode_add : decode (.cmd 0x0000000000000002#64) = .ok .add := by decide
theorem test_decode_reserved :
    decode (.cmd 0x0#64) = .error (.reservedCommand 0x0#64) ∧
    decode (.cmd 0x3#64) = .error (.reservedCommand 0x3#64) ∧
    decode (.cmd 0x102#64) = .error (.reservedCommand 0x102#64) ∧
    decode (.cmd 0x8000000000000001#64) = .error (.reservedCommand 0x8000000000000001#64) := by decide
theorem test_decodeTableWord :
    decodeTableWord 88 0x1100100000000000000FF = some (.wr 0x1001#16 0xFF#64) ∧
    decodeTableWord 88 0x030030000000000000000 = some (.rd 0x3003#16) ∧
    decodeTableWord 64 1 = some .mul ∧ decodeTableWord 64 2 = some .add := by decide
theorem test_decodeTableWord_rejects :
    decodeTableWord 64 0x102 = none ∧ decodeTableWord 88 (2 ^ 81) = none ∧ decodeTableWord 64 (2 ^ 64 + 1) = none ∧
    decodeTableWord 32 1 = none := by decide
theorem test_encode : (encode .mul).request = 0x100000000000000000001#81 ∧
    (encode .add).request = 0x100000000000000000002#81 := by decide

/-! ### The arithmetic of one micro-step (95_test_vectors.md 2.1, 2.3) -/

theorem test_mac_maximum : mac M M M M = 0xFFFFFFFFFFFFFFFFFFFFFFFFFFFFFFFF#128 := by decide
/-- V-K8. -/
theorem test_mac_halves :
    lo (mac 0x0FEDCBA987654321 0xDEADBEEFCAFEBABE 0xDA33DE77FA5453E7 0) = 0xD45D99E9AF002065#64 ∧
    hi (mac 0x0FEDCBA987654321 0xDEADBEEFCAFEBABE 0xDA33DE77FA5453E7 0) = 0x0DDB06310DC4C1AA#64 := by decide
/-- V-C2 and V-C6: the wide form and the two-check form. -/
theorem test_carry_forms :
    addWide M M 1 = 0x1FFFFFFFFFFFFFFFF#65 ∧ addTwoCheck M M 1 = (M, 1#1) ∧
    addWide 0x7FFFFFFFFFFFFFFF 0x8000000000000000 1 = 0x10000000000000000#65 ∧
    addTwoCheck 0x7FFFFFFFFFFFFFFF 0x8000000000000000 1 = (0#64, 1#1) := by decide

/-! ### The address map at `(8, 128)` (95_test_vectors.md 2.4) -/

theorem test_address_map :
    locate ⟨8, 128⟩ 0x0000 = some .cmd ∧ locate ⟨8, 128⟩ 0x0001 = some .status ∧
    locate ⟨8, 128⟩ 0x0002 = some .cfgW ∧ locate ⟨8, 128⟩ 0x0003 = some .cfgN ∧
    locate ⟨8, 128⟩ 0x1000 = some (.limb .A 0) ∧ locate ⟨8, 128⟩ 0x1007 = some (.limb .A 7) ∧
    locate ⟨8, 128⟩ 0x2007 = some (.limb .B 7) ∧ locate ⟨8, 128⟩ 0x300F = some (.limb .R 15) ∧
    locate ⟨8, 128⟩ 0x407F = some (.limb .X 127) ∧ locate ⟨8, 128⟩ 0x507F = some (.limb .Y 127) := by decide
theorem test_address_unmapped :
    locate ⟨8, 128⟩ 0x0004 = none ∧ locate ⟨8, 128⟩ 0x0FFF = none ∧ locate ⟨8, 128⟩ 0x1008 = none ∧
    locate ⟨8, 128⟩ 0x2008 = none ∧ locate ⟨8, 128⟩ 0x3010 = none ∧ locate ⟨8, 128⟩ 0x4080 = none ∧
    locate ⟨8, 128⟩ 0x5080 = none ∧ locate ⟨8, 128⟩ 0x6000 = none ∧ locate ⟨8, 128⟩ 0xFFFF = none := by decide

/-! ### One instruction each (95_test_vectors.md 2.2 to 2.4, programs P4 and P5) -/

theorem test_wr_stores : field (·.A) (exec (.wr 0x1001 0xFF) s2) = some [3, 0xFF] := by decide
/-- P4: a write to `R` is cause 3 and stores nothing. -/
theorem test_wr_read_only :
    field (fun t => (t.R, statusWord t)) (exec (.wr 0x3000 9) s2) = some ([7, 7, 7, 7], 0x7#64) := by decide
theorem test_rd_limb : field (·.rdata) (exec (.rd 0x2001) s2) = some [M] := by decide
/-- P4: at `W = 2` the address `0x1002` is unmapped, reads as zero, cause 2. -/
theorem test_rd_unmapped :
    field (fun t => (t.rdata, statusWord t)) (exec (.rd 0x1002) s2) = some ([0], 0x5#64) := by decide
/-- V-M7. -/
theorem test_mul_general :
    field (·.R) (exec .mul (block [0x123456789ABCDEF0, 0x0FEDCBA987654321] [0xDEADBEEFCAFEBABE, 0x0123456789ABCDEF]
      [0, 0] [0, 0])) =
      some [0xEB689F4EA447D620, 0xD45D99E9AF002065, 0x30132A27CF5A4546, 0x00121FA00AD77D74] := by decide
/-- P5, second `MUL`: the skip of the high limb over a dirty `R`, and the leftovers. -/
theorem test_mul_skip :
    field (fun t => (t.R, t.i, t.j, t.a, t.c)) (exec .mul (block [3, 0] [7, M] [0, 0] [0, 0])) =
      some ([0x15, 0xFFFFFFFFFFFFFFFD, 2, 0], 2, 2, 0, 2) := by decide
/-- V-A3, at `N = 4`. -/
theorem test_add_ripple :
    field (fun t => (t.X, t.Y, t.cy, statusWord t))
      (exec .add { State.resetOf ⟨1, 4⟩ with X := [M, 0, M, 5], Y := [M, M, 0, M] }) =
      some ([0xFFFFFFFFFFFFFFFE, 0, 0, 5], [M, M, 0, M], 1, 0) := by decide
/-- V-A1: the wrap to zero is no error. -/
theorem test_add_wraps :
    field (fun t => (t.X, t.k, statusWord t)) (exec .add (block [0, 0] [0, 0] [M, M] [1, 0])) =
      some ([0, 0], 2, 0) := by decide

/-! ### Steps -/

theorem test_step_first_after_reset :
    field (·.ph) (step (State.reset.withFetchWord 64 1)) = some .idle ∧
    field (fun t => readLimb t.A 1) (step (State.reset.withFetchWord 88 0x1100100000000000000FF)) = some 0xFF ∧
    field (·.rdata) (step (State.reset.withFetchWord 88 0x000020000000000000000)) = some [8] := by decide
theorem test_step_reset_mid_command :
    after (step { s2With [.reset] with ph := .mInner, i := 1, c := 5, cause := 3, err := 1 }) =
      some (State.resetOf ⟨2, 2⟩) := by decide
theorem test_step_reset_during_command :
    after (step (s2With [.resetDuring 0x1 4])) = some (State.resetOf ⟨2, 2⟩) := by decide

/-! ### Host scripts (R78, R79; program P1 in its pseudo-instructions) -/

theorem test_parse_script :
    parseScript "RESET ; start\nFILL A, [0x1, 0x0]\nMUL\nDUMP R\nRD STATUS\nWR 0x1001, 0xFF".toList =
      some [.reset, .fill .A [1, 0], .mul, .dump .R, .rd (.symbol .status), .wr (.number 0x1001) 0xFF] := by
  decide +kernel
theorem test_parse_refuses :
    parseScript "WR A[4096], 0x1".toList = none ∧ parseScript "FILL R, [0x1]".toList = none ∧
      parseScript "RD 0x10000".toList = none := by decide +kernel
theorem test_assemble :
    assembleScript ⟨2, 2⟩ [.fill .X [M.toNat, 0], .add, .dump .Y, .reset] =
      [.request 0x14000FFFFFFFFFFFFFFFF#81, .request 0x140010000000000000000#81, .request 0x100000000000000000002#81,
        .request 0x050000000000000000000#81, .request 0x050010000000000000000#81, .reset] := by decide

/-! ### Witnesses: for every statement with hypotheses, what meets them all -/

theorem test_witness_ready : Ready s2 ∧ BlockInv s2 ∧ s2.ph = .idle := by decide

theorem test_witness_WorkedEncodings : Ready s2 := by decide

theorem test_witness_DecodeAndEncodeAgree :
    (Instr.rd 0xFFFF).wf = true ∧
    (decode (.port 0x1FFFFFFFFFFFFFFFFFFFF#81) = .ok (.wr 0xFFFF#16 M) ∧
      (0x1FFFFFFFFFFFFFFFFFFFF#81).getLsbD 80 = true) ∧
    (decode (.port 0x0FFFFFFFFFFFFFFFFFFFF#81) = .ok (.rd 0xFFFF#16) ∧
      (0x0FFFFFFFFFFFFFFFFFFFF#81).getLsbD 80 = false) ∧
    decode (.cmd 0x2#64) = .ok .add := by decide

theorem test_witness_DecodingHasTwoStages :
    Ready s2 ∧ (0x0#64 ≠ 0x1#64 ∧ 0x0#64 ≠ 0x2#64) ∧ 0x0001#16 ≠ 0x0000#16 ∧
      locate s2.cfg 0x4001#16 = some (.limb .X 1) := by decide

theorem test_witness_ReservedCommandWords :
    Ready s2 ∧ (0x102#64 ≠ 0x1#64 ∧ 0x102#64 ≠ 0x2#64) ∧ (0x3#64 ≠ 0x1#64 ∧ 0x3#64 ≠ 0x2#64) ∧
      ((0x102#64).extractLsb' 0 8).toNat = 2 ∧ (0x102#64).extractLsb' 8 56 ≠ 0#56 ∧
      ((0x3#64).extractLsb' 0 8).toNat = 3 := by decide

theorem test_witness_StepRunsTheDecodedInstruction :
    (s2With [.request 0x100000000000000000002#81]).ph = .idle ∧ Ready (s2With [.request 0x100000000000000000002#81]) ∧
      decode (.cmd 0x2#64) = .ok .add ∧ (Encoded.cmd 0x2#64).request = 0x100000000000000000002#81 := by decide

theorem test_witness_IdleBlockKeepsItsState : s2.ph = .idle ∧ s2.script = [] := by decide

/-- One address at a boundary of each arm of R90, at `(2, 2)`, with the arm's effect. -/
theorem test_witness_HostWriteRule :
    Ready s2 ∧ (0x1100100000000000000FF#81).getLsbD 80 = true ∧
    after (exec (.wr 0x1001 9) s2) = some { s2 with A := [3, 9] } ∧
    after (exec (.wr 0x2001 9) s2) = some { s2 with B := [7, 9] } ∧
    after (exec (.wr 0x4001 9) s2) = some { s2 with X := [M, 9] } ∧
    after (exec (.wr 0x5001 9) s2) = some { s2 with Y := [1, 9] } ∧
    after (exec (.wr 0x0000 3) s2) = some { s2 with cause := 1, err := 1 } ∧
    after (exec (.wr 0x0001 9) s2) = some { s2 with cause := 3, err := 1 } ∧
    after (exec (.wr 0x0003 9) s2) = some { s2 with cause := 3, err := 1 } ∧
    after (exec (.wr 0x3003 9) s2) = some { s2 with cause := 3, err := 1 } ∧
    after (exec (.wr 0x3004 9) s2) = some { s2 with cause := 2, err := 1 } ∧
    after (exec (.wr 0x1002 9) s2) = some { s2 with cause := 2, err := 1 } := by decide

/-- One address at a boundary of each arm of R91, at `(2, 2)`, with the answer. -/
theorem test_witness_HostReadRule :
    Ready s2 ∧ (0x03003DEADBEEFCAFEBABE#81).getLsbD 80 = false ∧
    field (·.rdata) (exec (.rd 0x1001) s2) = some [5] ∧ field (·.rdata) (exec (.rd 0x2001) s2) = some [M] ∧
    field (·.rdata) (exec (.rd 0x3003) s2) = some [7] ∧ field (·.rdata) (exec (.rd 0x4001) s2) = some [0] ∧
    field (·.rdata) (exec (.rd 0x5001) s2) = some [0] ∧ field (·.rdata) (exec (.rd 0x0000) s2) = some [0] ∧
    field (·.rdata) (exec (.rd 0x0001) { s2 with cause := 2, err := 1 }) = some [5] ∧
    field (·.rdata) (exec (.rd 0x0002) s2) = some [2] ∧ field (·.rdata) (exec (.rd 0x0003) s2) = some [2] ∧
    field (·.cause) (exec (.rd 0x3004) s2) = some 2 := by decide

/-- The first and the last address of each row and of each hole, in the smallest, a small and the largest block. -/
theorem test_witness_AddressMapRows :
    Config.wf ⟨1, 1⟩ ∧ Config.wf ⟨2, 2⟩ ∧ Config.wf ⟨2048, 4096⟩ ∧
    locate ⟨2, 2⟩ 0x1001 = some (.limb .A 1) ∧ locate ⟨2, 2⟩ 0x2001 = some (.limb .B 1) ∧
    locate ⟨2, 2⟩ 0x3003 = some (.limb .R 3) ∧ locate ⟨2, 2⟩ 0x4001 = some (.limb .X 1) ∧
    locate ⟨2, 2⟩ 0x5001 = some (.limb .Y 1) ∧
    locate ⟨2, 2⟩ 0x0004 = none ∧ locate ⟨2, 2⟩ 0x0FFF = none ∧ locate ⟨2, 2⟩ 0x1002 = none ∧
    locate ⟨2, 2⟩ 0x1FFF = none ∧ locate ⟨2, 2⟩ 0x2002 = none ∧ locate ⟨2, 2⟩ 0x2FFF = none ∧
    locate ⟨2, 2⟩ 0x3004 = none ∧ locate ⟨2, 2⟩ 0x3FFF = none ∧ locate ⟨2, 2⟩ 0x4002 = none ∧
    locate ⟨2, 2⟩ 0x4FFF = none ∧ locate ⟨2, 2⟩ 0x5002 = none ∧ locate ⟨2, 2⟩ 0xFFFF = none ∧
    locate ⟨2048, 4096⟩ 0x3FFF = some (.limb .R 4095) ∧ locate ⟨2048, 4096⟩ 0x5FFF = some (.limb .Y 4095) ∧
    locate ⟨2048, 4096⟩ 0x6000 = none := by decide

theorem test_witness_UnmappedAccess :
    Ready s2 ∧ locate s2.cfg 0x1002 = none ∧ locate s2.cfg 0xFFFF = none := by decide

theorem test_witness_WriteChangesOneLimbOnly :
    Ready s2 ∧ (Buf.A ≠ .R ∧ 1 < bufLen s2.cfg .A) ∧ (Buf.Y ≠ .R ∧ 1 < bufLen s2.cfg .Y) ∧
      0x1000#16 ≠ limbAddr .A 1 := by decide

theorem test_witness_CmdIsADoorway :
    Ready s2 ∧ decodeCommand 0x1 = some .mul ∧ decodeCommand 0x2 = some .add ∧ decodeCommand 0x3 = none := by decide

theorem test_witness_WidthsAreConstants :
    Ready s2 ∧ step (s2With [.reset]) = .next (resetEvent s2) := ⟨by decide, rfl⟩

theorem test_witness_WhoChangesEachBuffer :
    field (·.A) (exec (.wr 0x1001 9) s2) = some [3, 9] ∧ field (·.B) (exec (.wr 0x2001 9) s2) = some [7, 9] ∧
    field (·.Y) (exec (.wr 0x5001 9) s2) = some [1, 9] ∧ field (·.X) (exec (.wr 0x4001 9) s2) = some [M, 9] ∧
    field (·.R) (exec .mul s2) ≠ some s2.R ∧ field (·.R) (exec (.wr 0x0000 1) s2) ≠ some s2.R ∧
    field (·.X) (exec .add s2) ≠ some s2.X ∧ field (·.X) (exec (.wr 0x0000 2) s2) ≠ some s2.X := by decide

theorem test_witness_PortIsClosedWhileACommandRuns :
    s2.cfg.wf ∧ Memory.wf (startMul s2) ∧ (startMul s2).ph ≠ .idle ∧ (startMul s2).script = [] ∧
      refusal (exec .add (startMul s2)) = some .portClosed := by decide

theorem test_witness_NoBlockNoInstruction :
    (¬ Config.wf ⟨0, 2⟩ ∧ refusal (exec .mul (State.resetOf ⟨0, 2⟩)) = some .widthOutOfBounds) ∧
    ((s2.cfg.wf ∧ ¬ Memory.wf { s2 with R := [0] }) ∧
      refusal (exec .mul { s2 with R := [0] }) = some .widthMismatch) := by decide

theorem test_witness_FlagErrorRecordsTheFirst :
    s2.cause = 0#3 ∧ (flagError .unmapped s2).cause ≠ 0#3 ∧ (Ready s2 ∧ Instr.mul ≠ .rd 0x0001) ∧
      field (·.cause) (exec (.wr 0x0001 0) (flagError .unmapped s2)) = some 2 := by decide

/-- Each cause of R152 is reached, each place that raises cause 3 among them. -/
theorem test_witness_ErrorCauseTable :
    s2.cause = 0#3 ∧ field (·.cause) (exec (.wr 0x0000 0) s2) = some 1 ∧
    field (·.cause) (exec (.rd 0x6000) s2) = some 2 ∧ field (·.cause) (exec (.wr 0x6000 0) s2) = some 2 ∧
    field (·.cause) (exec (.wr 0x0001 0) s2) = some 3 ∧ field (·.cause) (exec (.wr 0x0002 0) s2) = some 3 ∧
    field (·.cause) (exec (.wr 0x0003 0) s2) = some 3 ∧ field (·.cause) (exec (.wr 0x3000 0) s2) = some 3 ∧
    field (·.cause) (exec .mul s2) = some 0 := by decide

theorem test_witness_StatusFields :
    Ready s2 ∧ (s2.err = 1#1 ↔ s2.cause ≠ 0#3) ∧
    (let s := { s2With [.request 0x100000000000000000000#81] with cause := 2, err := 1 }
     s.cause ≠ 0#3 ∧ field (fun t => (t.cause, t.err)) (step s) = some (2, 1)) ∧
    field (·.cause) (exec .mul s2) = some 0 ∧ field (·.cause) (exec .add s2) = some 0 := by decide

theorem test_witness_OnlyResetClearsStatus :
    (let s := { s2With [.request 0x100010000000000000000#81] with cause := 2, err := 1 }
     s.cause ≠ 0#3 ∧ (∀ e ∈ s.script, e.isReset = false) ∧ field (·.cause) (run 1 s) = some 2) ∧
    (s2With [.reset]).script = .reset :: [] := by decide

theorem test_witness_ResetValues :
    (s2With [.reset]).cfg = ⟨2, 2⟩ ∧ (s2With [.reset]).script = .reset :: [] ∧
      step (s2With [.reset]) = .next (resetEvent s2) := ⟨rfl, rfl, rfl⟩

/-- A reset between transactions and one in the middle of a running command. -/
theorem test_witness_ResetIsTotal :
    (s2With [.reset]).script = .reset :: [] ∧ (microSteps 3 (startMul (s2With [.reset]))).script = .reset :: [] ∧
    (microSteps 3 (startMul (s2With [.reset]))).ph = .mInner ∧
    (s2With [.resetDuring 0x2 1]).ph = .idle ∧ (s2With [.resetDuring 0x2 1]).script = .resetDuring 0x2 1 :: [] := by
  decide

/-- A state of each phase the clauses speak of, at the first and last index. -/
theorem test_witness_MultiplierMicroSteps :
    (startMul s2).ph = .mZero ∧
    (let m := microSteps 9 (startMul s2); m.ph = .mOuter ∧ m.i = m.cfg.W) ∧
    (let m := microSteps 1 (startMul { s2 with A := [0, 5] }); m.ph = .mOuter ∧ m.i < m.cfg.W ∧ m.A.getD m.i 0#64 = 0) ∧
    (let m := microSteps 5 (startMul s2); m.ph = .mOuter ∧ m.i < m.cfg.W ∧ m.A.getD m.i 0#64 ≠ 0) ∧
    (let m := microSteps 2 (startMul s2); m.ph = .mInner ∧ m.j + 1 ≠ m.cfg.W) ∧
    (let m := microSteps 3 (startMul s2); m.ph = .mInner ∧ m.j + 1 = m.cfg.W) ∧
    (microSteps 8 (startMul s2)).ph = .mCarry := by decide

/-- An operand whose last limb is skipped and one all of whose limbs are skipped. -/
theorem test_witness_MulComputesTheExactProduct :
    Ready s2 ∧
    (let s := { s2 with A := [3, 0] }
     Ready s ∧ 0 < s.cfg.W ∧ s.A.getD 0 0#64 ≠ 0 ∧ ∀ l, l < s.cfg.W → 0 < l → s.A.getD l 0#64 = 0) ∧
    (let s := { s2 with A := [0, 0], j := 1, c := 9 }
     Ready s ∧ (∀ n, n < s.cfg.W → s.A.getD n 0#64 = 0) ∧
       field (fun t => (t.j, t.c)) (exec .mul s) = some (1, 9)) := by decide

theorem test_witness_MultiplierInvariants :
    Ready s2 ∧ (microSteps 1 (startMul s2)).ph = .mOuter ∧ (microSteps 9 (startMul s2)).ph = .mOuter ∧
    (microSteps 2 (startMul s2)).ph = .mInner ∧ (microSteps 8 (startMul s2)).ph = .mCarry := by decide

/-- V-M5's count: 7 micro-steps, and none of the first 6 ends the command. -/
theorem test_witness_MultiplierStepCounts :
    (let s := block [0, 5] [7, M] [0, 0] [0, 0]
     Ready s ∧ (microSteps 6 (startMul s)).ph ≠ .idle ∧ (microSteps 7 (startMul s)).ph = .idle) := by decide

theorem test_witness_ZeroSkipChangesNoResult : Ready (block [0, 5] [7, M] [0, 0] [0, 0]) := by decide

theorem test_witness_MultiplicationLaws :
    Ready s2 ∧ (Ready (block [0, 0] [M, M] [0, 0] [0, 0]) ∧ val (block [0, 0] [M, M] [0, 0] [0, 0]).A = 0) ∧
    (Ready (block [M, M] [0, 0] [0, 0] [0, 0]) ∧ val (block [M, M] [0, 0] [0, 0] [0, 0]).B = 0) := by decide

theorem test_witness_OldProductDoesNotEnter : Ready s2 ∧ [M, M, M, M].length = 2 * s2.cfg.W := by decide

theorem test_witness_AdderMicroSteps :
    (let m := startAdd s2; m.ph = .aStep ∧ m.k < m.X.length ∧ m.k + 1 ≠ m.cfg.N ∧ 1 ≠ m.k) ∧
    (let m := microSteps 1 (startAdd s2); m.ph = .aStep ∧ m.k < m.X.length ∧ m.k + 1 = m.cfg.N) := by decide

theorem test_witness_AddComputesTheModularSum :
    Ready s2 ∧ Ready (block [0, 0] [0, 0] [M, M] [M, M]) := by decide

theorem test_witness_AdderInvariant : Ready s2 ∧ 0 ≤ s2.cfg.N ∧ 2 ≤ s2.cfg.N := by decide

theorem test_witness_AdditionLaws :
    (let s := block [0, 0] [0, 0] [M, 5] [0, 0]; Ready s ∧ s.Y = List.replicate s.cfg.N 0#64) ∧
    (let s := block [0, 0] [0, 0] [M, M] [1, 0]
     Ready s ∧ s.X = List.replicate s.cfg.N 0xFFFFFFFFFFFFFFFF#64 ∧ val s.Y = 1) := by decide

theorem test_witness_RepeatedAddAccumulates :
    (let s := s2With [.request 0x100000000000000000002#81, .request 0x100000000000000000002#81]
     Ready s ∧ s.script = List.replicate 2 (.request (encode .add).request)) ∧
    s2.script = List.replicate 0 (.request (encode .add).request) := by decide

theorem test_witness_BufferValues : 0 < 1 ∧ 2 ^ 64 - 1 < 2 ^ (64 * 1) ∧ 2 ^ 128 - 1 < 2 ^ (64 * 2) := by decide

/-- A state of each phase, at the largest index. -/
theorem test_witness_EngineAccessesStayInBounds :
    s2.cfg.wf ∧ Memory.wf s2 ∧
    SequencerOk { s2 with ph := .mOuter, i := 1 } ∧ SequencerOk { s2 with ph := .mInner, i := 1, j := 1 } ∧
    SequencerOk { s2 with ph := .mCarry, i := 1, j := 2 } ∧ SequencerOk { s2 with ph := .aStep, k := 1 } :=
  ⟨by decide, by decide, by simp [SequencerOk, s2, block, State.resetOf], by simp [SequencerOk, s2, block, State.resetOf],
    by simp [SequencerOk, s2, block, State.resetOf], by simp [SequencerOk, s2, block, State.resetOf]⟩

theorem test_witness_InvariantHoldsAtReset : Config.wf ⟨1, 1⟩ ∧ Config.wf ⟨2048, 4096⟩ := by decide

theorem test_witness_StepKeepsTheInvariant :
    BlockInv (s2With [.reset]) ∧ step (s2With [.reset]) = .next (resetEvent s2) ∧
    BlockInv (s2With [.request 0x100000000000000000001#81]) ∧
    field (·.i) (step (s2With [.request 0x100000000000000000001#81])) = some 2 :=
  ⟨by decide, rfl, by decide, by decide⟩

theorem test_witness_NoRunEverStops : BlockInv (s2With [.request 0x100000000000000000000#81, .reset]) := by decide

theorem test_witness_ScriptRunsToItsEnd : BlockInv (s2With [.request 0x100000000000000000001#81, .reset]) := by decide

theorem test_witness_RHoldsAProductOrZero :
    (let s := { s2With [.reset] with R := [6, 0, 0, 0] }
     BlockInv s ∧ HoldsProduct s ∧ step s = .next (resetEvent s2)) :=
  ⟨by decide, ⟨2, 3, by decide, by decide, by decide⟩, rfl⟩

theorem test_witness_SequencerLeftoversAreInvisible :
    BlockInv s2 ∧ SameButSequencer s2 { s2 with i := 2, j := 1, a := 4, c := 5, k := 2, cy := 1 } :=
  ⟨by decide, rfl, rfl⟩

theorem test_witness_FillAndDump :
    (let s := s2With (assemble ⟨2, 2⟩ (.fill .Y [8, 9]))
     Ready s ∧ Buf.Y ≠ .R ∧ [8, 9].length ≤ bufLen s.cfg .Y ∧ s.script = assemble s.cfg (.fill .Y [8, 9])) ∧
    (let s := s2With (assemble ⟨2, 2⟩ (.dump .R)); Ready s ∧ s.script = assemble s.cfg (.dump .R)) := by decide

theorem test_witness_StatementsRunTheirInstructions :
    (∀ st ∈ [Statement.mul, .add, .reset, .wr (.number 0x1001) 9, .rd (.symbol .status)],
      Ready (s2With (assemble ⟨2, 2⟩ st)) ∧ (s2With (assemble ⟨2, 2⟩ st)).script = assemble s2.cfg st) := by decide

end Sys2Proof.Machine.Tests
end

namespace Sys2Proof.Machine

/-- R11's sum, cut after the low `n` limbs. -/
theorem lowVal_eq_sum_range {d : List Limb} {n : Nat} (h : n ≤ d.length) :
    lowVal d n = ((List.range n).map fun i => (readLimb d i).toNat * 2 ^ (64 * i)).sum := by
  induction n with
  | zero => simp
  | succ n ih => simp [lowVal_succ h, ih (Nat.le_of_succ_le h), List.range_succ]

theorem val_eq_sum_range (d : List Limb) :
    val d = ((List.range d.length).map fun i => (readLimb d i).toNat * 2 ^ (64 * i)).sum := by
  rw [← lowVal_of_length_le le_rfl, lowVal_eq_sum_range le_rfl]

/-- R11: limb `i` of `limbs n v` is bits `64i + 63 : 64i` of `v`. -/
theorem toNat_readLimb_limbs {n i : Nat} (h : i < n) (v : Nat) :
    (readLimb (limbs n v) i).toNat = (v >>> (64 * i)) % 2 ^ 64 := by
  induction n generalizing i v with
  | zero => exact absurd h (Nat.not_lt_zero i)
  | succ n ih =>
    cases i with
    | zero => simp [readLimb]
    | succ i =>
      have hr : readLimb (limbs (n + 1) v) (i + 1) = readLimb (limbs n (v / 2 ^ 64)) i := by simp [readLimb]
      rw [hr, ih (Nat.lt_of_succ_lt_succ h), Nat.shiftRight_eq_div_pow, Nat.shiftRight_eq_div_pow,
        Nat.div_div_eq_div_mul, ← pow_limb_succ]

theorem val_limbs_of_lt {n v : Nat} (h : v < 2 ^ (64 * n)) : val (limbs n v) = v := by
  rw [val_limbs_mod, Nat.mod_eq_of_lt h]

/-- Settles O37: the sum by induction on how many limbs are counted, the limbs by induction on the buffer's length. -/
theorem bufferValues : Obligations.BufferValues :=
  ⟨val_eq_sum_range, val_lt_pow, length_limbs_eq, fun _ v _ h => toNat_readLimb_limbs h v,
    fun _ _ h => val_limbs_of_lt h, limbs_of_val⟩

end Sys2Proof.Machine

namespace Sys2Proof.Machine

/-! ### The control registers at the port (R28, R52) -/

@[simp] theorem locate_status (cfg : Config) : locate cfg 0x0001#16 = some .status := rfl

@[simp] theorem locate_cfgW (cfg : Config) : locate cfg 0x0002#16 = some .cfgW := rfl

@[simp] theorem locate_cfgN (cfg : Config) : locate cfg 0x0003#16 = some .cfgN := rfl

/-- A read of a mapped address answers the location's value and does nothing else (R57, R91). -/
theorem exec_rd_of_locate {s : State} (h : Ready s) {addr : HostAddr} {l : Location} (hl : locate s.cfg addr = some l) :
    exec (.rd addr) s = .next { s with rdata := s.rdata ++ [locationValue s l] } := by
  rw [exec_rd_of_ready h]; simp [answerRead, readEffect, memRead, hl]

theorem exec_wr_cmd {s : State} (h : Ready s) (d : Limb) : exec (.wr 0x0000#16 d) s = .next (writeCmd d s) := by
  rw [exec_wr_of_ready h]; simp [memWrite]

/-- A write to a read-only location records cause 3 and does nothing else (R33, R90, R152). -/
theorem exec_wr_of_readOnly {s : State} (h : Ready s) {addr : HostAddr}
    (hl : locate s.cfg addr = some .status ∨ locate s.cfg addr = some .cfgW ∨ locate s.cfg addr = some .cfgN ∨
      ∃ n, locate s.cfg addr = some (.limb .R n)) (d : Limb) :
    exec (.wr addr d) s = .next (flagError .readOnly s) := by
  rw [exec_wr_of_ready h]
  obtain hl | hl | hl | ⟨n, hl⟩ := hl <;> simp [memWrite, hl]

/-- A word that carries a command does what the command's own instruction does (R72, R75). -/
theorem writeCmd_of_command {s : State} (h : Ready s) {d : Limb} {c : Command} (hd : decodeCommand d = some c) :
    .next (writeCmd d s) = exec c.instr s := by
  cases c with
  | mul => simp [writeCmd, hd, Command.instr, exec_mul_of_ready h]
  | add => simp [writeCmd, hd, Command.instr, exec_add_of_ready h]

theorem writeCmd_of_reserved {d : Limb} (hd : decodeCommand d = none) (s : State) :
    writeCmd d s = flagError .reservedCommand s := by
  simp [writeCmd, hd]

/-- Settles O12: by whether the word written decodes to a command. -/
theorem cmdIsADoorway : Obligations.CmdIsADoorway := by
  intro s h
  refine ⟨fun d => ?_, exec_rd_of_locate h (locate_cmd _)⟩
  rw [exec_wr_cmd h]
  cases hd : decodeCommand d with
  | some c => exact writeCmd_of_command h hd
  | none => rw [writeCmd_of_reserved hd]

/-! ### The widths (R33, R35) -/

/-- No step changes the widths: each of the five things a step can do keeps them. -/
theorem step_cfg {s t : State} (h : step s = .next t) : t.cfg = s.cfg := by
  obtain ⟨-, -, rfl⟩ | ⟨req, rest, -, -, he⟩ | ⟨rest, -, rfl⟩ | ⟨cw, n, rest, -, -, rfl⟩ | ⟨-, -, rfl⟩ := step_next h
  · rfl
  · exact (exec_cfg_script he).1
  · rfl
  · exact cutCommand_cfg cw n _
  · exact microStep_cfg s

/-- Settles O13: the port's accesses to the two constants, and `step_cfg` for every step. -/
theorem widthsAreConstants : Obligations.WidthsAreConstants :=
  ⟨fun _ h => ⟨exec_rd_of_locate h (locate_cfgW _), exec_rd_of_locate h (locate_cfgN _),
    fun d => ⟨exec_wr_of_readOnly h (.inr (.inl (locate_cfgW _))) d,
      exec_wr_of_readOnly h (.inr (.inr (.inl (locate_cfgN _)))) d⟩⟩, fun _ _ => step_cfg⟩

/-! ### `STATUS` (R29, R151) -/

/-- `{CAUSE, ERR}` as a number: `ERR` weighs 1 and `CAUSE` weighs 2. -/
theorem statusWord_toNat (s : State) : (statusWord s).toNat = 2 * s.cause.toNat + s.err.toNat := by
  have hc := s.cause.isLt
  have he := s.err.isLt
  rw [statusWord, BitVec.toNat_setWidth, BitVec.toNat_append, ← Nat.shiftLeft_add_eq_or_of_lt he, Nat.shiftLeft_eq]
  omega

theorem statusWord_fields (s : State) :
    (statusWord s).extractLsb' 0 1 = s.err ∧ (statusWord s).extractLsb' 1 3 = s.cause ∧
      (statusWord s).extractLsb' 4 60 = 0#60 := by
  have hc := s.cause.isLt
  have he := s.err.isLt
  refine ⟨?_, ?_, ?_⟩ <;> apply BitVec.eq_of_toNat_eq <;>
    rw [BitVec.extractLsb'_toNat, Nat.shiftRight_eq_div_pow, statusWord_toNat]
  · omega
  · omega
  · rw [BitVec.toNat_ofNat]; omega

theorem errorCause_code_ne_zero (e : ErrorCause) : e.code ≠ 0#3 := by
  cases e <;> decide

theorem flagError_of_cause_eq_zero {s : State} (h : s.cause = 0#3) (e : ErrorCause) :
    flagError e s = { s with cause := e.code, err := 1#1 } := if_pos h

theorem flagError_of_cause_ne_zero {s : State} (h : s.cause ≠ 0#3) (e : ErrorCause) : flagError e s = s := if_neg h

/-- `STATUS` went from `s` to `t` as R151 allows without a reset: it stayed, or a first error was recorded. -/
def StatusKeptOrRecorded (s t : State) : Prop :=
  (t.err = s.err ∧ t.cause = s.cause) ∨ (s.cause = 0#3 ∧ ∃ e : ErrorCause, t.err = 1#1 ∧ t.cause = e.code)

theorem flagError_status (e : ErrorCause) (s : State) : StatusKeptOrRecorded s (flagError e s) := by
  by_cases h : s.cause = 0#3
  · rw [flagError_of_cause_eq_zero h]; exact .inr ⟨h, e, rfl, rfl⟩
  · rw [flagError_of_cause_ne_zero h]; exact .inl ⟨rfl, rfl⟩

theorem writeCmd_status (d : Limb) (s : State) : StatusKeptOrRecorded s (writeCmd d s) := by
  unfold writeCmd
  split
  · exact .inl ⟨runMul_err s, runMul_cause s⟩
  · exact .inl ⟨runAdd_err s, runAdd_cause s⟩
  · exact flagError_status _ s

theorem memWrite_status (addr : HostAddr) (d : Limb) (s : State) : StatusKeptOrRecorded s (memWrite addr d s) := by
  unfold memWrite
  split
  case h_1 => exact writeCmd_status d s
  -- the writable buffers `A`, `B`, `X`, `Y`
  case h_6 | h_7 | h_8 | h_9 => exact .inl ⟨setLimb_err .., setLimb_cause ..⟩
  all_goals exact flagError_status _ s

theorem answerRead_status (addr : HostAddr) (s : State) : StatusKeptOrRecorded s (answerRead addr s) := by
  unfold answerRead readEffect
  split
  · exact .inl ⟨rfl, rfl⟩
  · exact flagError_status .unmapped s

theorem exec_status {i : Instr} {s t : State} (h : exec i s = .next t) : StatusKeptOrRecorded s t := by
  obtain ⟨-, ⟨addr, d, -, rfl⟩ | ⟨addr, -, rfl⟩ | ⟨-, rfl⟩ | ⟨-, rfl⟩⟩ := exec_next h
  · exact memWrite_status addr d s
  · exact answerRead_status addr s
  · exact .inl ⟨runMul_err s, runMul_cause s⟩
  · exact .inl ⟨runAdd_err s, runAdd_cause s⟩

/-- Everything a step can do to `STATUS`: what R151 allows, or, at a reset, clear it (R34, R155). -/
theorem step_status {s t : State} (h : step s = .next t) :
    StatusKeptOrRecorded s t ∨
      ((t.err = 0#1 ∧ t.cause = 0#3) ∧ ∃ e rest, s.script = e :: rest ∧ e.isReset = true) := by
  obtain ⟨-, -, rfl⟩ | ⟨req, rest, -, -, he⟩ | ⟨rest, hs, rfl⟩ | ⟨cw, n, rest, hs, -, rfl⟩ | ⟨-, -, rfl⟩ := step_next h
  · exact .inl (.inl ⟨rfl, rfl⟩)
  · have hexec := exec_status he
    exact .inl hexec
  · exact .inr ⟨⟨rfl, rfl⟩, _, rest, hs, rfl⟩
  · exact .inr ⟨⟨rfl, rfl⟩, _, rest, hs, rfl⟩
  · exact .inl (.inl ⟨microStep_err s, microStep_cause s⟩)

/-- `ERR = 1` exactly when `CAUSE != 0` survives every step: a recorded error sets both, a reset clears both. -/
theorem step_err_iff_cause {s t : State} (hs : s.err = 1#1 ↔ s.cause ≠ 0#3) (h : step s = .next t) :
    t.err = 1#1 ↔ t.cause ≠ 0#3 := by
  obtain (⟨he, hc⟩ | ⟨-, e, he, hc⟩) | ⟨⟨he, hc⟩, -⟩ := step_status h
  · rwa [he, hc]
  · simp [he, hc, errorCause_code_ne_zero]
  · simp [he, hc]

/-- An error on record stays as it is until reset (R155). -/
theorem step_status_sticky {s t : State} (hs : s.cause ≠ 0#3) (h : step s = .next t) :
    (t.err = s.err ∧ t.cause = s.cause) ∨ ∃ e rest, s.script = e :: rest ∧ e.isReset = true := by
  obtain (hkept | ⟨hzero, -⟩) | ⟨-, hreset⟩ := step_status h
  · exact .inl hkept
  · exact absurd hzero hs
  · exact .inr hreset

theorem exec_command_status {s t : State} (h : exec .mul s = .next t ∨ exec .add s = .next t) :
    t.err = s.err ∧ t.cause = s.cause := by
  rcases h with h | h <;> obtain ⟨-, rfl⟩ := atPort_next h
  · exact ⟨runMul_err s, runMul_cause s⟩
  · exact ⟨runAdd_err s, runAdd_cause s⟩

/-- Settles O19: the word by its number, and the kept and sticky fields by what a step can do to `STATUS`. -/
theorem statusFields : Obligations.StatusFields :=
  ⟨statusWord_fields, fun _ h => ⟨exec_rd_of_locate h (locate_status _), exec_wr_of_readOnly h (.inl (locate_status _))⟩,
    fun _ => ⟨rfl, rfl⟩, fun _ _ => step_err_iff_cause, fun _ _ => step_status_sticky, fun _ _ => exec_command_status⟩

/-! ### Reset (R34, R170) -/

theorem resetOf_buf (cfg : Config) (b : Buf) :
    (State.resetOf cfg).buf b = List.replicate (bufLen cfg b) 0x0000000000000000#64 := by
  cases b <;> rfl

theorem step_of_reset {s : State} {rest : List HostEvent} (h : s.script = .reset :: rest) :
    step s = .next (resetEvent { s with script := rest }) := by
  simp [step, h]

/-- The state a reset event leaves is the reset state, but for the host's script and answers. -/
theorem step_of_reset_next {s t : State} {rest : List HostEvent} (h : s.script = .reset :: rest)
    (ht : step s = .next t) : t = { State.resetOf s.cfg with script := rest, rdata := s.rdata } := by
  rw [step_of_reset h] at ht; cases ht; rfl

/-- Settles O21: both states are the reset state up to the host's own fields, which the table does not list. -/
theorem resetValues : Obligations.ResetValues := by
  intro cfg t ht
  obtain ⟨script, rdata, rfl⟩ : ∃ script rdata, t = { State.resetOf cfg with script := script, rdata := rdata } := by
    obtain rfl | ⟨s, rest, rfl, hs, hstep⟩ := ht
    · exact ⟨[], [], rfl⟩
    · exact ⟨rest, s.rdata, step_of_reset_next hs hstep⟩
  exact ⟨resetOf_buf cfg, rfl, rfl, rfl, rfl, rfl, rfl, rfl, rfl, rfl, rfl⟩

end Sys2Proof.Machine

namespace Sys2Proof.Machine

/-! ### Unmapped addresses (R54) -/

/-- `flag_error` neither reads nor writes the host's answers, so an answer may be given before it or after it. -/
theorem flagError_with_rdata (e : ErrorCause) (s : State) (answers : List Limb) :
    flagError e { s with rdata := answers } = { flagError e s with rdata := answers } := by
  by_cases h : s.cause = 0#3
  · rw [flagError_of_cause_eq_zero h, flagError_of_cause_eq_zero (s := { s with rdata := answers }) h]
  · rw [flagError_of_cause_ne_zero h, flagError_of_cause_ne_zero (s := { s with rdata := answers }) h]

theorem memWrite_of_unmapped {s : State} {addr : HostAddr} (hl : locate s.cfg addr = none) (d : Limb) :
    memWrite addr d s = flagError .unmapped s := by
  simp [memWrite, hl]

theorem answerRead_of_unmapped {s : State} {addr : HostAddr} (hl : locate s.cfg addr = none) :
    answerRead addr s = flagError .unmapped { s with rdata := s.rdata ++ [0x0000000000000000#64] } := by
  rw [flagError_with_rdata]; simp [answerRead, readEffect, memRead, hl]

/-- Settles O10: the port is open, and each transaction takes the unmapped branch of its rule. -/
theorem unmappedAccess : Obligations.UnmappedAccess := by
  intro s addr h hl
  refine ⟨fun d => ?_, ?_⟩
  · rw [exec_wr_of_ready h, memWrite_of_unmapped hl]
  · rw [exec_rd_of_ready h, answerRead_of_unmapped hl]

end Sys2Proof.Machine

namespace Sys2Proof

/-! ### The two stages of the decoder (R74, R75) -/

theorem decode_port (req : Request) : decode (.port req) = .ok (decodeRequest req) := rfl

/-- Stage one, by bit 80 of the request (R75). -/
theorem decodeRequest_by_bit80 (req : Request) :
    decodeRequest req = if req.getLsbD 80 = true then .wr (req.extractLsb' 64 16) (req.extractLsb' 0 64)
      else .rd (req.extractLsb' 64 16) := by
  simp only [decodeRequest, reqWe_eq_one_iff, reqAddr, reqData]

theorem decode_packRequest_wr (addr : HostAddr) (d : Limb) :
    decode (.port (packRequest 1#1 addr d)) = .ok (.wr addr d) := by
  simp [decode_port, decodeRequest]

theorem decode_packRequest_rd (addr : HostAddr) (d : Limb) :
    decode (.port (packRequest 0#1 addr d)) = .ok (.rd addr) := by
  simp [decode_port, decodeRequest]

/-- The words stage two reads as no command (R74). -/
theorem decodeCommand_eq_none_iff (cw : CommandWord) :
    decodeCommand cw = none ↔ cw ≠ 0x0000000000000001#64 ∧ cw ≠ 0x0000000000000002#64 := by
  unfold decodeCommand
  by_cases hmul : cw = 0x0000000000000001#64
  · simp [hmul]
  · by_cases hadd : cw = 0x0000000000000002#64 <;> simp [hmul, hadd]

theorem decode_cmd_of_command {cw : CommandWord} {c : Command} (h : decodeCommand cw = some c) :
    decode (.cmd cw) = .ok c.instr := by
  simp [decode, h]

theorem decode_cmd_eq_reserved_iff (cw : CommandWord) :
    decode (.cmd cw) = .error (.reservedCommand cw) ↔ decodeCommand cw = none := by
  cases h : decodeCommand cw <;> simp [decode, h]

/-- A command word is its two fields, `zero` and `opcode` (R72). -/
theorem commandWord_toNat (cw : CommandWord) :
    cw.toNat = 256 * (cw.extractLsb' 8 56).toNat + (cw.extractLsb' 0 8).toNat := by
  have h := cw.isLt
  simp only [BitVec.extractLsb'_toNat, Nat.shiftRight_eq_div_pow]
  omega

/-- R74's two wordings agree: a word other than the two commands has an opcode of neither, or an opcode of one of them
under some bit of 63:8. -/
theorem not_command_iff_fields (cw : CommandWord) :
    cw ≠ 0x0000000000000001#64 ∧ cw ≠ 0x0000000000000002#64 ↔
      ((cw.extractLsb' 0 8).toNat = 0 ∨ 3 ≤ (cw.extractLsb' 0 8).toNat) ∨
      (((cw.extractLsb' 0 8).toNat = 1 ∨ (cw.extractLsb' 0 8).toNat = 2) ∧ cw.extractLsb' 8 56 ≠ 0#56) := by
  have hfields := commandWord_toNat cw
  have hop := (cw.extractLsb' 0 8).isLt
  simp only [ne_eq, ← BitVec.toNat_inj, BitVec.toNat_ofNat]
  omega

end Sys2Proof

namespace Sys2Proof.Machine

/-! ### A write to `CMD` and a write elsewhere (R75, R90) -/

theorem exec_wr_cmd_of_command {s : State} (h : Ready s) {d : Limb} {c : Command} (hd : decodeCommand d = some c) :
    exec (.wr 0x0000#16 d) s = exec c.instr s := by
  rw [exec_wr_cmd h, writeCmd_of_command h hd]

theorem exec_wr_cmd_of_reserved {s : State} (h : Ready s) {d : Limb}
    (hd : d ≠ 0x0000000000000001#64 ∧ d ≠ 0x0000000000000002#64) :
    exec (.wr 0x0000#16 d) s = .next (flagError .reservedCommand s) := by
  rw [exec_wr_cmd h, writeCmd_of_reserved ((decodeCommand_eq_none_iff d).mpr hd)]

/-- A write to a limb the host may write stores it (R57, R90). -/
theorem memWrite_of_locate_limb {s : State} {addr : HostAddr} {b : Buf} {t : Nat} (hb : b ≠ .R)
    (hl : locate s.cfg addr = some (.limb b t)) (d : Limb) : memWrite addr d s = s.setLimb b t d := by
  cases b with
  | R => exact absurd rfl hb
  | A | B | X | Y => simp [memWrite, hl]

/-- Everything a write to another address than `CMD` can do: record an error, or store its word in one limb of a buffer
other than `R`. -/
theorem memWrite_of_ne_cmd {addr : HostAddr} (ha : addr ≠ 0x0000#16) (d : Limb) (s : State) :
    (∃ e, memWrite addr d s = flagError e s) ∨
      ∃ b t, b ≠ .R ∧ locate s.cfg addr = some (.limb b t) ∧ memWrite addr d s = s.setLimb b t d := by
  cases hl : locate s.cfg addr with
  | none => exact .inl ⟨.unmapped, memWrite_of_unmapped hl d⟩
  | some l =>
    cases l with
    | cmd => exact absurd (locate_eq_cmd hl) ha
    | status | cfgW | cfgN => exact .inl ⟨.readOnly, by simp [memWrite, hl]⟩
    | limb b t =>
      by_cases hb : b = .R
      · subst hb; exact .inl ⟨.readOnly, by simp [memWrite, hl]⟩
      · exact .inr ⟨b, t, hb, rfl, memWrite_of_locate_limb hb hl d⟩

theorem setLimb_R_of_ne {b : Buf} (hb : b ≠ .R) (t : Nat) (v : Limb) (s : State) : (s.setLimb b t v).R = s.R := by
  cases b with
  | R => exact absurd rfl hb
  | A | B | X | Y => rfl

theorem setLimb_X_of_ne {b : Buf} (hb : b ≠ .X) (t : Nat) (v : Limb) (s : State) : (s.setLimb b t v).X = s.X := by
  cases b with
  | X => exact absurd rfl hb
  | A | B | R | Y => rfl

/-- A write to another address than `CMD` starts no command: `R` and the sequencer stay, and `X` but for the limb
written (R75). -/
theorem memWrite_starts_no_command {addr : HostAddr} (ha : addr ≠ 0x0000#16) (d : Limb) (s : State) :
    let t := memWrite addr d s
    t.R = s.R ∧ t.ph = s.ph ∧ t.i = s.i ∧ t.j = s.j ∧ t.a = s.a ∧ t.c = s.c ∧ t.k = s.k ∧ t.cy = s.cy ∧
      (t.X = s.X ∨ ∃ n, locate s.cfg addr = some (.limb .X n) ∧ t.X = s.X.set n d) := by
  obtain ⟨e, he⟩ | ⟨b, n, hb, hl, he⟩ := memWrite_of_ne_cmd ha d s
  · simp [he]
  · have hX : (s.setLimb b n d).X = s.X ∨
        ∃ m, locate s.cfg addr = some (.limb .X m) ∧ (s.setLimb b n d).X = s.X.set m d := by
      by_cases hbX : b = .X
      · subst hbX; exact .inr ⟨n, hl, rfl⟩
      · exact .inl (setLimb_X_of_ne hbX n d s)
    rw [he]
    exact ⟨setLimb_R_of_ne hb n d s, setLimb_ph .., setLimb_i .., setLimb_j .., setLimb_a .., setLimb_c ..,
      setLimb_k .., setLimb_cy .., hX⟩

/-- `A[0]` is mapped at `0x1000` in every block (R9, R52). -/
theorem locate_A_zero {cfg : Config} (hw : cfg.wf) : locate cfg 0x1000#16 = some (.limb .A 0) := by
  have haddr : 0x1000#16 = limbAddr .A 0 := by decide
  have hlen : 0 < bufLen cfg .A := hw.1.1
  rw [haddr, locate_limbAddr hw hlen]

/-- Settles O3: stage one by bit 80, stage two by the word, and any other address by what a write there can do. -/
theorem decodingHasTwoStages : Obligations.DecodingHasTwoStages := by
  refine ⟨fun req => ?_, fun s h => ⟨?_, ?_, fun d hmul hadd => ?_⟩, fun s addr d h ha => ?_, fun s h => ?_⟩
  · rw [decode_port, decodeRequest_by_bit80]
  · exact exec_wr_cmd_of_command (c := .mul) h rfl
  · exact exec_wr_cmd_of_command (c := .add) h rfl
  · exact exec_wr_cmd_of_reserved h ⟨hmul, hadd⟩
  · obtain ⟨hR, hph, hrest⟩ := memWrite_starts_no_command ha d s
    exact ⟨_, exec_wr_of_ready h addr d, hR, hph.trans h.2.2, hrest⟩
  · rw [exec_wr_of_ready h, memWrite_of_locate_limb (by decide) (locate_A_zero h.1)]
    rfl

/-- Settles O4: both wordings of R74 are the words `decodeCommand` rejects. -/
theorem reservedCommandWords : Obligations.ReservedCommandWords := by
  have hreserved (cw : CommandWord) : decode (.cmd cw) = .error (.reservedCommand cw) ↔
      cw ≠ 0x0000000000000001#64 ∧ cw ≠ 0x0000000000000002#64 :=
    (decode_cmd_eq_reserved_iff cw).trans (decodeCommand_eq_none_iff cw)
  exact ⟨hreserved, fun cw => (hreserved cw).trans (not_command_iff_fields cw),
    fun _ _ h hmul hadd => exec_wr_cmd_of_reserved h ⟨hmul, hadd⟩, fun req => ⟨_, decode_port req⟩⟩

/-- Settles O1: each packed word is evaluated once; what it decodes to and what encodes to it follow from the packing. -/
theorem workedEncodings : Obligations.WorkedEncodings := by
  have hwr : packRequest 1#1 0x1001#16 0x00000000000000FF#64 = 0x1100100000000000000FF#81 := by decide
  have hrd : packRequest 0#1 0x3003#16 0#64 = 0x030030000000000000000#81 := by decide
  refine ⟨⟨hwr, ?_, congrArg Encoded.port hwr⟩, ⟨hrd, ?_, congrArg Encoded.port hrd⟩,
    ⟨decode_cmd_of_command (c := .mul) rfl, by decide⟩, ⟨decode_cmd_of_command (c := .add) rfl, by decide⟩,
    fun s h => exec_wr_cmd_of_reserved h (by decide)⟩
  · rw [← hwr, decode_packRequest_wr]
  · rw [← hrd, decode_packRequest_rd]

end Sys2Proof.Machine

namespace Sys2Proof.Machine

/-! ### Every command comes to an end (R109, R115, R135) -/

/-- A bound on the micro-steps a running command still has to take, by phase: an outer step of the multiplier is at most
one M_OUTER, `W` M_INNER and one M_CARRY (R115), and the adder takes one A_STEP for each limb left (R135). -/
def stepsLeft (s : State) : Nat :=
  match s.ph with
  | .idle => 0
  | .mZero => s.cfg.W * (s.cfg.W + 2) + 2
  | .mOuter => (s.cfg.W - s.i) * (s.cfg.W + 2) + 1
  | .mInner => (s.cfg.W - (s.i + 1)) * (s.cfg.W + 2) + 2 + (s.cfg.W - s.j)
  | .mCarry => (s.cfg.W - (s.i + 1)) * (s.cfg.W + 2) + 2
  | .aStep => s.cfg.N - s.k

theorem stepsLeft_startMul (s : State) : stepsLeft (startMul s) = mulStepBound s.cfg.W := by
  simp only [stepsLeft, startMul, mulStepBound]; ring

theorem stepsLeft_startAdd (s : State) : stepsLeft (startAdd s) = addStepCount s.cfg.N := rfl

theorem sequencerOk_startMul (s : State) : SequencerOk (startMul s) := trivial

theorem sequencerOk_startAdd {s : State} (h : s.cfg.wf) : SequencerOk (startAdd s) :=
  Nat.lt_of_succ_le h.2.1

/-- Every micro-step leaves the sequencer's indices where the next phase needs them. -/
theorem microStep_sequencerOk {s : State} (h : SequencerOk s) : SequencerOk (microStep s) := by
  cases hph : s.ph with
  | idle => rwa [microStep_of_idle hph]
  | mZero => simp [microStep, hph, SequencerOk, mulZero]
  | mOuter =>
    simp only [microStep, hph, mulOuter]
    split_ifs with hi hzero <;> simp only [SequencerOk]
    · exact hi
    · exact ⟨hi, Nat.zero_lt_of_lt hi⟩
  | mInner =>
    simp only [SequencerOk, hph] at h
    obtain ⟨hi, hj⟩ := h
    by_cases hlast : s.j + 1 = s.cfg.W
    · simp only [microStep, hph, mulInner, SequencerOk, if_pos hlast]
      exact ⟨hi, hlast⟩
    · simp only [microStep, hph, mulInner, SequencerOk, if_neg hlast]
      exact ⟨hi, Nat.lt_of_le_of_ne hj hlast⟩
  | mCarry =>
    simp only [SequencerOk, hph] at h
    simp only [microStep, hph, mulCarry, SequencerOk]
    exact h.1
  | aStep =>
    simp only [SequencerOk, hph] at h
    by_cases hlast : s.k + 1 = s.cfg.N
    · simp only [microStep, hph, addStep, SequencerOk, if_pos hlast]
    · simp only [microStep, hph, addStep, SequencerOk, if_neg hlast]
      exact Nat.lt_of_le_of_ne h hlast

/-- Every micro-step of a running command leaves fewer to take. -/
theorem stepsLeft_microStep_lt {s : State} (h : SequencerOk s) (hrun : s.ph ≠ .idle) :
    stepsLeft (microStep s) < stepsLeft s := by
  cases hph : s.ph with
  | idle => exact absurd hph hrun
  | mZero => simp [stepsLeft, microStep, hph, mulZero]
  | mOuter =>
    simp only [microStep, hph, mulOuter]
    have houter (hi : s.i < s.cfg.W) :
        (s.cfg.W - s.i) * (s.cfg.W + 2) = (s.cfg.W - (s.i + 1)) * (s.cfg.W + 2) + (s.cfg.W + 2) := by
      rw [← Nat.succ_mul]; congr 1; omega
    split_ifs with hi hzero <;> simp only [stepsLeft, hph]
    · rw [houter hi]; omega
    · rw [houter hi]; omega
    · omega
  | mInner =>
    simp only [SequencerOk, hph] at h
    by_cases hlast : s.j + 1 = s.cfg.W
    · simp only [stepsLeft, microStep, hph, mulInner, if_pos hlast]; omega
    · simp only [stepsLeft, microStep, hph, mulInner, if_neg hlast]; omega
  | mCarry => simp [stepsLeft, microStep, hph, mulCarry]
  | aStep =>
    simp only [SequencerOk, hph] at h
    by_cases hlast : s.k + 1 = s.cfg.N
    · simp only [stepsLeft, microStep, hph, addStep, if_pos hlast]; omega
    · simp only [stepsLeft, microStep, hph, addStep, if_neg hlast]; omega

/-- With at least as many micro-steps as the bound, the command is over. -/
theorem microSteps_idle_of_stepsLeft_le {n : Nat} {s : State} (h : SequencerOk s) (hn : stepsLeft s ≤ n) :
    (microSteps n s).ph = .idle := by
  induction n generalizing s with
  | zero =>
    by_contra hrun
    have hlt := stepsLeft_microStep_lt h hrun
    omega
  | succ n ih =>
    by_cases hph : s.ph = .idle
    · rwa [microSteps_of_idle _ hph]
    · have hlt := stepsLeft_microStep_lt h hph
      exact ih (microStep_sequencerOk h) (by omega)

/-- A run to `IDLE` whose bound suffices stops in the first idle state. -/
theorem runToIdle_first_idle {n : Nat} {s : State} (h : SequencerOk s) (hn : stepsLeft s ≤ n) :
    ∃ m, runToIdle n s = microSteps m s ∧ (runToIdle n s).ph = .idle ∧
      ∀ k, k < m → (microSteps k s).ph ≠ .idle := by
  have hend := microSteps_idle_of_stepsLeft_le h hn
  have hex : ∃ m, (microSteps m s).ph = .idle := ⟨n, hend⟩
  refine ⟨Nat.find hex, runToIdle_eq_of_idle (Nat.find_min' hex hend) (Nat.find_spec hex), ?_,
    fun k hk => Nat.find_min hex hk⟩
  rwa [runToIdle_eq_microSteps]

theorem runMul_first_idle (s : State) :
    ∃ n, runMul s = microSteps n (startMul s) ∧ (runMul s).ph = .idle ∧
      ∀ m, m < n → (microSteps m (startMul s)).ph ≠ .idle :=
  runToIdle_first_idle (sequencerOk_startMul s) (stepsLeft_startMul s).le

theorem runAdd_first_idle {s : State} (h : s.cfg.wf) :
    ∃ n, runAdd s = microSteps n (startAdd s) ∧ (runAdd s).ph = .idle ∧
      ∀ m, m < n → (microSteps m (startAdd s)).ph ≠ .idle :=
  runToIdle_first_idle (sequencerOk_startAdd h) (stepsLeft_startAdd s).le

/-! ### The address map from an address's two fields (R51, R52) -/

/-- An index inside the window of its region's buffer names that limb. -/
theorem locate_of_window {cfg : Config} {addr : HostAddr} {b : Buf} (hr : region addr = bufRegion b)
    (ht : (index addr).toNat < bufLen cfg b) : locate cfg addr = some (.limb b (index addr).toNat) := by
  cases b <;> simp [locate, hr, bufRegion, windowLimb, ht]

theorem controlLocation_some_lt {t : Nat} {l : Location} (h : controlLocation t = some l) : t < 4 := by
  by_contra hge
  have hnone : controlLocation t = none := by
    simp only [controlLocation]
    rw [if_neg (by omega), if_neg (by omega), if_neg (by omega), if_neg (by omega)]
  rw [hnone] at h; cases h

/-- A mapped address is one of the four control registers or lies in a buffer's window (R52). -/
theorem locate_some_cases {cfg : Config} {addr : HostAddr} {l : Location} (h : locate cfg addr = some l) :
    addr.toNat < 4 ∨ ∃ b, region addr = bufRegion b ∧ (index addr).toNat < bufLen cfg b := by
  by_cases hr : region addr = 0x0#4
  · simp only [locate, hr, if_true] at h
    rw [addr_toNat, hr]
    exact .inl (by simpa using controlLocation_some_lt h)
  · simp only [locate, if_neg hr] at h
    split_ifs at h with hA hB hR hX hY
    · exact .inr ⟨.A, hA, (windowLimb_some h).1⟩
    · exact .inr ⟨.B, hB, (windowLimb_some h).1⟩
    · exact .inr ⟨.R, hR, (windowLimb_some h).1⟩
    · exact .inr ⟨.X, hX, (windowLimb_some h).1⟩
    · exact .inr ⟨.Y, hY, (windowLimb_some h).1⟩

/-- An address past the control registers and outside every window is unmapped (R52, R54). -/
theorem locate_eq_none {cfg : Config} {addr : HostAddr} (hctl : 4 ≤ addr.toNat)
    (hwin : ∀ b, ¬ (region addr = bufRegion b ∧ (index addr).toNat < bufLen cfg b)) : locate cfg addr = none := by
  cases hl : locate cfg addr with
  | none => rfl
  | some l =>
    obtain hlt | ⟨b, hb⟩ := locate_some_cases hl
    · exact absurd hctl (Nat.not_le.mpr hlt)
    · exact absurd hb (hwin b)

theorem four_le_of_not_control {addr : HostAddr} (h0 : addr ≠ 0x0000#16) (h1 : addr ≠ 0x0001#16)
    (h2 : addr ≠ 0x0002#16) (h3 : addr ≠ 0x0003#16) : 4 ≤ addr.toNat := by
  bv_omega

/-! ### The rules of `WR` and `RD` (R90, R91) -/

/-- A write inside the window of a buffer other than `R` stores the limb (R57, R90). -/
theorem exec_wr_of_window {s : State} (h : Ready s) {addr : HostAddr} {b : Buf} (hb : b ≠ .R)
    (hwin : region addr = bufRegion b ∧ (index addr).toNat < bufLen s.cfg b) (d : Limb) :
    exec (.wr addr d) s = .next (s.setLimb b (index addr).toNat d) := by
  rw [exec_wr_of_ready h, memWrite_of_locate_limb hb (locate_of_window hwin.1 hwin.2)]

/-- A read inside a buffer's window answers the limb (R91). -/
theorem exec_rd_of_window {s : State} (h : Ready s) {addr : HostAddr} {b : Buf}
    (hwin : region addr = bufRegion b ∧ (index addr).toNat < bufLen s.cfg b) :
    exec (.rd addr) s = .next { s with rdata := s.rdata ++ [readLimb (s.buf b) (index addr).toNat] } :=
  exec_rd_of_locate h (locate_of_window hwin.1 hwin.2)

/-- Settles O7: the commands end by the count of micro-steps left, and the effect goes by R90's list of addresses. -/
theorem hostWriteRule : Obligations.HostWriteRule := by
  refine ⟨fun req hwe => ?_, fun s h => ⟨runMul_first_idle s, runAdd_first_idle h.1⟩, fun s addr d h => ?_⟩
  · rw [decode_port, decodeRequest_by_bit80, if_pos hwe]
  · dsimp only
    split_ifs with hA hB hX hY hcmd hmul hadd hro hR
    · exact exec_wr_of_window (b := .A) h (by decide) hA d
    · exact exec_wr_of_window (b := .B) h (by decide) hB d
    · exact exec_wr_of_window (b := .X) h (by decide) hX d
    · exact exec_wr_of_window (b := .Y) h (by decide) hY d
    · subst hcmd hmul
      exact (exec_wr_cmd_of_command (c := .mul) h rfl).trans (exec_mul_of_ready h)
    · subst hcmd hadd
      exact (exec_wr_cmd_of_command (c := .add) h rfl).trans (exec_add_of_ready h)
    · subst hcmd
      exact exec_wr_cmd_of_reserved h ⟨hmul, hadd⟩
    · refine exec_wr_of_readOnly h ?_ d
      obtain rfl | rfl | rfl := hro <;> simp
    · exact exec_wr_of_readOnly h (.inr (.inr (.inr ⟨_, locate_of_window (b := .R) hR.1 hR.2⟩))) d
    · obtain ⟨h1, h2, h3⟩ : addr ≠ 0x0001#16 ∧ addr ≠ 0x0002#16 ∧ addr ≠ 0x0003#16 := by simpa using hro
      have hnone : locate s.cfg addr = none :=
        locate_eq_none (four_le_of_not_control hcmd h1 h2 h3) fun b => by cases b <;> assumption
      exact (unmappedAccess s addr h hnone).1 d

/-- Settles O8: the answer and the effect go by R91's list of addresses. -/
theorem hostReadRule : Obligations.HostReadRule := by
  refine ⟨fun req hwe => ?_, fun s addr h => ?_⟩
  · rw [decode_port, decodeRequest_by_bit80, if_neg (hwe ▸ Bool.false_ne_true)]
  · dsimp only
    split_ifs with hA hB hR hX hY hcmd hstatus hcfgW hcfgN
    · exact exec_rd_of_window (b := .A) h hA
    · exact exec_rd_of_window (b := .B) h hB
    · exact exec_rd_of_window (b := .R) h hR
    · exact exec_rd_of_window (b := .X) h hX
    · exact exec_rd_of_window (b := .Y) h hY
    · subst hcmd; exact exec_rd_of_locate h (locate_cmd _)
    · subst hstatus; exact exec_rd_of_locate h (locate_status _)
    · subst hcfgW; exact exec_rd_of_locate h (locate_cfgW _)
    · subst hcfgN; exact exec_rd_of_locate h (locate_cfgN _)
    · have hnone : locate s.cfg addr = none :=
        locate_eq_none (four_le_of_not_control hcmd hstatus hcfgW hcfgN) fun b => by cases b <;> assumption
      exact (unmappedAccess s addr h hnone).2

end Sys2Proof.Machine

namespace Sys2Proof.Machine

/-! ### The MAC primitive (R104) -/

/-- The largest value of `a * b + r + c` is reached only at the largest limbs. -/
theorem mac_max_iff {a b r c M : Nat} (hM : 0 < M) (ha : a ≤ M) (hb : b ≤ M) (hr : r ≤ M) (hc : c ≤ M) :
    a * b + r + c = M * M + 2 * M ↔ a = M ∧ b = M ∧ r = M ∧ c = M := by
  constructor
  · intro h
    have hab : a * b ≤ M * M := Nat.mul_le_mul ha hb
    have hfull : M * M ≤ a * b := by omega
    have haM : M * M ≤ a * M := hfull.trans (Nat.mul_le_mul_left a hb)
    have hbM : M * M ≤ M * b := hfull.trans (Nat.mul_le_mul_right b ha)
    exact ⟨ha.antisymm (Nat.le_of_mul_le_mul_right haM hM), hb.antisymm (Nat.le_of_mul_le_mul_left hbM hM),
      by omega, by omega⟩
  · rintro ⟨rfl, rfl, rfl, rfl⟩; ring

/-- Settles O23: `M = 2^64 - 1` bounds every limb, and `M * M + 2 * M = 2^128 - 1`. -/
theorem macIsExact : Obligations.MacIsExact := by
  intro a b r c
  have hle (x : Limb) : x.toNat ≤ 2 ^ 64 - 1 := Nat.le_pred_of_lt x.isLt
  have hones (x : Limb) : x = 0xFFFFFFFFFFFFFFFF#64 ↔ x.toNat = 2 ^ 64 - 1 := BitVec.toNat_inj.symm
  refine ⟨mac_toNat a b r c, by rw [Nat.add_comm, hi_lo], ?_⟩
  rw [mac_toNat, hones, hones, hones, hones]
  exact mac_max_iff (M := 2 ^ 64 - 1) (by decide) (hle a) (hle b) (hle r) (hle c)

/-! ### Each micro-step of the multiplier (R102 to R110) -/

theorem microStep_of_mZero {m : State} (h : m.ph = .mZero) : microStep m = mulZero m := by simp [microStep, h]

theorem microStep_of_mOuter {m : State} (h : m.ph = .mOuter) : microStep m = mulOuter m := by simp [microStep, h]

theorem microStep_of_mInner {m : State} (h : m.ph = .mInner) : microStep m = mulInner m := by simp [microStep, h]

theorem microStep_of_mCarry {m : State} (h : m.ph = .mCarry) : microStep m = mulCarry m := by simp [microStep, h]

/-- The start of an outer step: `a` is latched, `c` and `j` are cleared (R107). -/
def mulStartOuter (m : State) : State :=
  { m with a := readLimb m.A m.i, c := 0#64, j := 0, ph := .mInner }

/-- The zero skip (R106). -/
def mulSkip (m : State) : State := { m with a := 0#64, i := m.i + 1 }

/-- The end of the outer loop (R105). -/
def mulEnd (m : State) : State := { m with ph := .idle }

theorem mulOuter_eq_end {m : State} (hi : ¬ m.i < m.cfg.W) : mulOuter m = mulEnd m := by
  rw [mulOuter, if_neg hi, mulEnd]

theorem mulOuter_eq_skip {m : State} (hi : m.i < m.cfg.W) (ha : readLimb m.A m.i = 0#64) :
    mulOuter m = mulSkip m := by
  rw [mulOuter, if_pos hi, if_pos ha, ha, mulSkip]

theorem mulOuter_eq_start {m : State} (hi : m.i < m.cfg.W) (ha : readLimb m.A m.i ≠ 0#64) :
    mulOuter m = mulStartOuter m := by
  rw [mulOuter, if_pos hi, if_neg ha, mulStartOuter]

@[simp] theorem mulInner_j (m : State) : (mulInner m).j = m.j + 1 := rfl

theorem mulInner_ph_last {m : State} (h : m.j + 1 = m.cfg.W) : (mulInner m).ph = .mCarry := if_pos h

theorem mulInner_ph_next {m : State} (h : m.j + 1 ≠ m.cfg.W) : (mulInner m).ph = .mInner := if_neg h

/-- No micro-step enters M_ZERO: only the start step does (R103). -/
theorem microStep_ph_ne_mZero (m : State) : (microStep m).ph ≠ .mZero := by
  unfold microStep
  split
  · rename_i h; simp [h]
  · simp [mulZero]
  · rename_i h; unfold mulOuter; split_ifs <;> simp [h]
  · unfold mulInner; dsimp only; split_ifs <;> decide
  · simp [mulCarry]
  · unfold addStep; dsimp only; split_ifs <;> decide

/-- Settles O24: one equation for each phase, and by the test of M_OUTER. -/
theorem multiplierMicroSteps : Obligations.MultiplierMicroSteps := by
  refine ⟨fun _ => rfl, fun s n => ?_, fun m h => ?_, fun m h hi => ?_, fun m h hi ha => ?_, fun m h hi ha => ?_,
    fun m h => ⟨_, rfl, ?_⟩, fun m h => ?_⟩
  · rw [microSteps_succ_last]; exact microStep_ph_ne_mZero _
  · rw [microStep_of_mZero h]; rfl
  · rw [microStep_of_mOuter h, mulOuter_eq_end (by omega)]; rfl
  · rw [microStep_of_mOuter h, mulOuter_eq_skip hi ha]; rfl
  · rw [microStep_of_mOuter h, mulOuter_eq_start hi ha]; rfl
  · rw [microStep_of_mInner h]
    exact ⟨rfl, rfl, rfl, mulInner_ph_last, mulInner_ph_next, rfl⟩
  · rw [microStep_of_mCarry h]; rfl

end Sys2Proof.Machine

namespace Sys2Proof.Machine

/-! ### The multiplier's invariants (R111) -/

/-- Between outer steps: `R` is the product of the low `i` limbs of `A` with `B`, and zero from `i + W` on (R111 (a)). -/
structure OuterInv (m : State) : Prop where
  index : m.i ≤ m.cfg.W
  product : val m.R = lowVal m.A m.i * val m.B
  upper : ∀ t, m.i + m.cfg.W ≤ t → readLimb m.R t = 0#64

/-- Within the outer step of limb `a = A[i]`: the running carry at its weight completes the product so far, and `R` is
zero from `i + W` on (R111 (b), (c)). -/
structure InnerInv (m : State) : Prop where
  index : m.i < m.cfg.W
  latched : m.a = readLimb m.A m.i
  product : val m.R + m.c.toNat * 2 ^ (64 * (m.i + m.j)) =
    lowVal m.A m.i * val m.B + m.a.toNat * lowVal m.B m.j * 2 ^ (64 * m.i)
  upper : ∀ t, m.i + m.cfg.W ≤ t → readLimb m.R t = 0#64

/-- The invariant of a `MUL` that is running, with or without the zero skip, down to the product it ends with. -/
def MulInv (m : State) : Prop :=
  Memory.wf m ∧
    match m.ph with
    | .idle => val m.R = val m.A * val m.B
    | .mZero => True
    | .mOuter => OuterInv m
    | .mInner => InnerInv m ∧ m.j < m.cfg.W
    | .mCarry => InnerInv m ∧ m.j = m.cfg.W
    | .aStep => False

theorem mulInv_startMul {s : State} (hw : Memory.wf s) : MulInv (startMul s) := ⟨hw, trivial⟩

theorem MulInv.wf {m : State} (h : MulInv m) : Memory.wf m := h.1

section
variable {m : State} (h : MulInv m)
include h

theorem MulInv.of_idle (hph : m.ph = .idle) : val m.R = val m.A * val m.B := by
  simpa only [MulInv, hph] using h.2

theorem MulInv.of_mOuter (hph : m.ph = .mOuter) : OuterInv m := by
  simpa only [MulInv, hph] using h.2

theorem MulInv.of_mInner (hph : m.ph = .mInner) : InnerInv m ∧ m.j < m.cfg.W := by
  simpa only [MulInv, hph] using h.2

theorem MulInv.of_mCarry (hph : m.ph = .mCarry) : InnerInv m ∧ m.j = m.cfg.W := by
  simpa only [MulInv, hph] using h.2

theorem MulInv.ph_ne_aStep : m.ph ≠ .aStep := by
  intro hph
  simpa only [MulInv, hph] using h.2

theorem MulInv.sequencerOk : SequencerOk m := by
  unfold SequencerOk
  split
  · trivial
  · trivial
  · exact (h.of_mOuter ‹_›).index
  · exact ⟨(h.of_mInner ‹_›).1.index, (h.of_mInner ‹_›).2⟩
  · exact ⟨(h.of_mCarry ‹_›).1.index, (h.of_mCarry ‹_›).2⟩
  · exact absurd ‹_› h.ph_ne_aStep

end

theorem outerInv_mulZero (m : State) : OuterInv (mulZero m) where
  index := Nat.zero_le _
  product := by simp [mulZero]
  upper _ _ := readLimb_replicate_zero ..

theorem OuterInv.product_of_end {m : State} (h : OuterInv m) (hw : Memory.wf m) (hi : ¬ m.i < m.cfg.W) :
    val m.R = val m.A * val m.B := by
  rw [h.product, lowVal_of_length_le (by rw [hw.1]; omega)]

/-- A skipped limb is zero: the low limbs' value does not grow (R106). -/
theorem outerInv_mulSkip {m : State} (h : OuterInv m) (hw : Memory.wf m) (hi : m.i < m.cfg.W)
    (ha : readLimb m.A m.i = 0#64) : OuterInv (mulSkip m) where
  index := hi
  product := by
    have hlow : lowVal m.A (m.i + 1) = lowVal m.A m.i := by rw [lowVal_succ (by rwa [hw.1]), ha]; simp
    simpa [mulSkip, hlow] using h.product
  upper t ht := h.upper t (by simp only [mulSkip] at ht; omega)

theorem innerInv_mulStartOuter {m : State} (h : OuterInv m) (hi : m.i < m.cfg.W) : InnerInv (mulStartOuter m) where
  index := hi
  latched := rfl
  product := by simpa [mulStartOuter] using h.product
  upper := h.upper

/-- One MAC step moves the low half into `R[i+j]` and the high half into the carry (R104, R108). -/
theorem innerInv_mulInner {m : State} (h : InnerInv m) (hw : Memory.wf m) (hj : m.j < m.cfg.W) : InnerInv (mulInner m) where
  index := h.index
  latched := h.latched
  product := by
    obtain ⟨hA, hB, hR, -, -⟩ := hw
    have hi := h.index
    have hset := val_set (d := m.R) (t := m.i + m.j) (by omega)
      (lo (mac m.a (readLimb m.B m.j) (readLimb m.R (m.i + m.j)) m.c))
    have hmac := (hi_lo _).trans (mac_toNat m.a (readLimb m.B m.j) (readLimb m.R (m.i + m.j)) m.c)
    have hpow : 2 ^ (64 * (m.i + (m.j + 1))) = 2 ^ 64 * 2 ^ (64 * (m.i + m.j)) := pow_limb_succ _
    have hadd : 2 ^ (64 * (m.i + m.j)) = 2 ^ (64 * m.i) * 2 ^ (64 * m.j) := by rw [Nat.mul_add, Nat.pow_add]
    have hprod := h.product
    simp only [mulInner, lowVal_succ (hB ▸ hj), hpow]
    rw [hadd] at *
    linear_combination hprod + hset + 2 ^ (64 * m.i) * 2 ^ (64 * m.j) * hmac
  upper t ht := by
    have hi := h.index
    exact (readLimb_set_ne (by simp only [mulInner] at ht; omega) _).trans (h.upper t ht)

/-- The final carry is stored in a limb that is still zero, so the store is an addition (R110, R111 (c)). -/
theorem outerInv_mulCarry {m : State} (h : InnerInv m) (hw : Memory.wf m) (hj : m.j = m.cfg.W) : OuterInv (mulCarry m) where
  index := h.index
  product := by
    obtain ⟨hA, hB, hR, -, -⟩ := hw
    have hi := h.index
    have hset := val_set (d := m.R) (t := m.i + m.cfg.W) (by omega) m.c
    have hprod := h.product
    rw [h.upper _ le_rfl] at hset
    rw [hj, lowVal_of_length_le hB.le, h.latched] at hprod
    simp only [mulCarry, lowVal_succ (hA ▸ hi)]
    simp only [BitVec.toNat_zero] at hset
    linear_combination hprod + hset
  upper t ht := by
    simp only [mulCarry] at ht
    exact (readLimb_set_ne (by omega) _).trans (h.upper t (by omega))

theorem mulInv_mulEnd {m : State} (h : OuterInv m) (hw : Memory.wf m) (hi : ¬ m.i < m.cfg.W) : MulInv (mulEnd m) :=
  ⟨hw, h.product_of_end hw hi⟩

theorem mulInv_mulStartOuter {m : State} (h : OuterInv m) (hw : Memory.wf m) (hi : m.i < m.cfg.W) :
    MulInv (mulStartOuter m) :=
  ⟨hw, innerInv_mulStartOuter h hi, Nat.zero_lt_of_lt hi⟩

theorem mulInv_of_outerInv {m : State} (hw : Memory.wf m) (hph : m.ph = .mOuter) (h : OuterInv m) : MulInv m := by
  refine ⟨hw, ?_⟩; rw [hph]; exact h

/-- Every micro-step of the multiplier keeps its invariant (R111). -/
theorem mulInv_microStep {m : State} (h : MulInv m) : MulInv (microStep m) := by
  have hw := microStep_wf h.wf
  cases hph : m.ph with
  | idle => rwa [microStep_of_idle hph]
  | mZero =>
    rw [microStep_of_mZero hph] at hw ⊢
    exact ⟨hw, outerInv_mulZero m⟩
  | mOuter =>
    have ho := h.of_mOuter hph
    rw [microStep_of_mOuter hph]
    by_cases hi : m.i < m.cfg.W
    · by_cases ha : readLimb m.A m.i = 0#64
      · rw [mulOuter_eq_skip hi ha]; exact mulInv_of_outerInv h.wf hph (outerInv_mulSkip ho h.wf hi ha)
      · rw [mulOuter_eq_start hi ha]; exact mulInv_mulStartOuter ho h.wf hi
    · rw [mulOuter_eq_end hi]; exact mulInv_mulEnd ho h.wf hi
  | mInner =>
    obtain ⟨hin, hj⟩ := h.of_mInner hph
    rw [microStep_of_mInner hph] at hw ⊢
    refine ⟨hw, ?_⟩
    by_cases hlast : m.j + 1 = m.cfg.W
    · rw [mulInner_ph_last hlast]; exact ⟨innerInv_mulInner hin h.wf hj, hlast⟩
    · rw [mulInner_ph_next hlast]; exact ⟨innerInv_mulInner hin h.wf hj, Nat.lt_of_le_of_ne hj hlast⟩
  | mCarry =>
    obtain ⟨hin, hj⟩ := h.of_mCarry hph
    rw [microStep_of_mCarry hph] at hw ⊢
    exact ⟨hw, outerInv_mulCarry hin h.wf hj⟩
  | aStep => exact absurd hph h.ph_ne_aStep

theorem mulInv_microSteps (n : Nat) {s : State} (hw : Memory.wf s) : MulInv (microSteps n (startMul s)) :=
  microSteps_keep (P := MulInv) (fun _ h => mulInv_microStep h) n (mulInv_startMul hw)

/-- Settles O26: the invariant holds at the start step and every micro-step keeps it. -/
theorem multiplierInvariants : Obligations.MultiplierInvariants := by
  intro s n h
  have hinv := mulInv_microSteps n h.2.1
  have hinner (hin : InnerInv (microSteps n (startMul s))) :
      let m := microSteps n (startMul s)
      val m.R + m.c.toNat * 2 ^ (64 * (m.i + m.j)) =
          lowVal s.A m.i * val s.B + (s.A.getD m.i 0#64).toNat * lowVal s.B m.j * 2 ^ (64 * m.i) ∧
        ∀ t, m.i + s.cfg.W ≤ t → t < 2 * s.cfg.W → m.R.getD t 0#64 = 0#64 := by
    have hprod := hin.product
    rw [hin.latched] at hprod
    simp only [microSteps_A, microSteps_B, startMul_A, startMul_B] at hprod
    exact ⟨hprod, fun t ht _ => hin.upper t (by simpa using ht)⟩
  refine ⟨fun hph => ?_, fun hph => ?_⟩
  · have ho := hinv.of_mOuter hph
    exact ⟨by simpa using ho.product, fun t ht _ => ho.upper t (by simpa using ht)⟩
  · obtain hph | hph := hph
    · exact hinner (hinv.of_mInner hph).1
    · exact hinner (hinv.of_mCarry hph).1

end Sys2Proof.Machine

namespace Sys2Proof.Machine

/-! ### The product a `MUL` ends with (R100, R112) -/

theorem runMul_eq_microSteps (s : State) : runMul s = microSteps (mulStepBound s.cfg.W) (startMul s) :=
  runToIdle_eq_microSteps _ _

@[simp] theorem runMul_ph (s : State) : (runMul s).ph = .idle := by
  obtain ⟨-, -, hidle, -⟩ := runMul_first_idle s
  exact hidle

/-- The exact product of the operands, the value `R` is left with. -/
theorem runMul_val {s : State} (hw : Memory.wf s) : val (runMul s).R = val s.A * val s.B := by
  have hinv : MulInv (runMul s) := by rw [runMul_eq_microSteps]; exact mulInv_microSteps _ hw
  simpa using hinv.of_idle (runMul_ph s)

theorem runMul_R {s : State} (hw : Memory.wf s) : (runMul s).R = limbs (2 * s.cfg.W) (val s.A * val s.B) := by
  obtain ⟨-, -, hR, -, -⟩ := runMul_wf hw
  exact eq_limbs_of_val (by rw [hR, runMul_cfg]) (runMul_val hw)

theorem limbs_zero_value (n : Nat) : limbs n 0 = List.replicate n 0#64 :=
  (eq_limbs_of_val (List.length_replicate ..) (val_replicate_zero n)).symm

/-- Settles O29: both runs end in the limbs of one product. -/
theorem multiplicationLaws : Obligations.MultiplicationLaws := by
  intro s h
  have ⟨hcfg, hw, hph⟩ := h
  have ⟨hA, hB, hrest⟩ := hw
  have hswap : Memory.wf { s with A := s.B, B := s.A } := ⟨hB, hA, hrest⟩
  refine ⟨_, _, exec_mul_of_ready h, exec_mul_of_ready ⟨hcfg, hswap, hph⟩, runMul_val hw, ?_, fun hzero => ?_⟩
  · rw [runMul_R hswap, runMul_R hw]
    exact congrArg (limbs (2 * s.cfg.W)) (Nat.mul_comm ..)
  · rw [runMul_R hw, Nat.mul_eq_zero.mpr hzero, limbs_zero_value]

/-! ### What a `MUL` leaves of the adder and of the sequencer (R100, R105) -/

/-- The sum buffer and the adder's registers are as they were. -/
def AdderKept (s m : State) : Prop := m.X = s.X ∧ m.k = s.k ∧ m.cy = s.cy

/-- Only A_STEP touches what belongs to the adder. -/
theorem adderKept_microStep {m : State} (hph : m.ph ≠ .aStep) : AdderKept m (microStep m) := by
  cases hp : m.ph with
  | aStep => exact absurd hp hph
  | idle => rw [microStep_of_idle hp]; exact ⟨rfl, rfl, rfl⟩
  | mOuter => rw [microStep_of_mOuter hp]; exact ⟨mulOuter_X m, mulOuter_k m, mulOuter_cy m⟩
  | mZero => rw [microStep_of_mZero hp]; exact ⟨rfl, rfl, rfl⟩
  | mInner => rw [microStep_of_mInner hp]; exact ⟨rfl, rfl, rfl⟩
  | mCarry => rw [microStep_of_mCarry hp]; exact ⟨rfl, rfl, rfl⟩

theorem AdderKept.trans {s m u : State} (h : AdderKept s m) (h' : AdderKept m u) : AdderKept s u :=
  ⟨h'.1.trans h.1, h'.2.1.trans h.2.1, h'.2.2.trans h.2.2⟩

/-- What `a`, `j` and `c` hold when the outer indices below `n` are done, in a `MUL` started in `s` (R105): `a` the last
limb looked at, `j` and `c` as the last outer step that ran left them, or as `s` had them when none ran. -/
structure LeftoversOk (s m : State) (n : Nat) : Prop where
  latched : 0 < n → m.a = readLimb m.A (n - 1)
  none_ran : (∀ l, l < n → readLimb m.A l = 0#64) → m.j = s.j ∧ m.c = s.c
  last_ran : ∀ l, l < n → readLimb m.A l ≠ 0#64 → (∀ l', l < l' → l' < n → readLimb m.A l' = 0#64) →
    m.j = m.cfg.W ∧ m.c = readLimb m.R (l + m.cfg.W)

/-- The sequencer's leftovers at every phase of a `MUL` started in `s`; within an outer step they are being replaced. -/
def MulLeftovers (s m : State) : Prop :=
  match m.ph with
  | .idle => m.i = m.cfg.W ∧ LeftoversOk s m m.i
  | .mZero => m.j = s.j ∧ m.c = s.c
  | .mOuter => LeftoversOk s m m.i
  | .mInner => readLimb m.A m.i ≠ 0#64
  | .mCarry => readLimb m.A m.i ≠ 0#64
  | .aStep => False

theorem leftoversOk_mulZero {s m : State} (hj : m.j = s.j) (hc : m.c = s.c) :
    LeftoversOk s (mulZero m) (mulZero m).i where
  latched h := absurd h (Nat.lt_irrefl 0)
  none_ran _ := ⟨hj, hc⟩
  last_ran l hl := absurd hl (Nat.not_lt_zero l)

/-- A skip leaves `j` and `c`, and the last outer step that ran is still the last (R106). -/
theorem leftoversOk_mulSkip {s m : State} (h : LeftoversOk s m m.i) (ha : readLimb m.A m.i = 0#64) :
    LeftoversOk s (mulSkip m) (mulSkip m).i where
  latched _ := ha.symm
  none_ran hz := h.none_ran fun l hl => hz l (Nat.lt_succ_of_lt hl)
  last_ran l hl hne hz := by
    have hlt : l < m.i := Nat.lt_of_le_of_ne (Nat.le_of_lt_succ hl) fun he => hne (he ▸ ha)
    exact h.last_ran l hlt hne fun l' h1 h2 => hz l' h1 (Nat.lt_succ_of_lt h2)

/-- The outer step that M_CARRY ends is the last that ran, and its carry is the limb just stored (R110). -/
theorem leftoversOk_mulCarry {m : State} (s : State) (hin : InnerInv m) (hw : Memory.wf m) (hj : m.j = m.cfg.W)
    (hne : readLimb m.A m.i ≠ 0#64) : LeftoversOk s (mulCarry m) (mulCarry m).i where
  latched _ := hin.latched
  none_ran hz := absurd (hz m.i (Nat.lt_succ_self _)) hne
  last_ran l hl _ hz := by
    obtain ⟨-, -, hR, -, -⟩ := hw
    have hi := hin.index
    have hlast : l = m.i := by
      by_contra he
      exact hne (hz m.i (Nat.lt_of_le_of_ne (Nat.le_of_lt_succ hl) he) (Nat.lt_succ_self _))
    exact ⟨hj, hlast ▸ (readLimb_set_self (by omega) _).symm⟩

/-- Every micro-step of the multiplier keeps what R105 says of the leftovers. -/
theorem mulLeftovers_microStep {s m : State} (h : MulInv m) (hl : MulLeftovers s m) : MulLeftovers s (microStep m) := by
  cases hph : m.ph with
  | idle => rwa [microStep_of_idle hph]
  | mZero =>
    simp only [MulLeftovers, hph] at hl
    rw [microStep_of_mZero hph]
    exact leftoversOk_mulZero hl.1 hl.2
  | mOuter =>
    simp only [MulLeftovers, hph] at hl
    rw [microStep_of_mOuter hph]
    by_cases hi : m.i < m.cfg.W
    · by_cases ha : readLimb m.A m.i = 0#64
      · have hskip := leftoversOk_mulSkip hl ha
        rw [mulOuter_eq_skip hi ha]
        simpa only [MulLeftovers, mulSkip, hph] using hskip
      · rw [mulOuter_eq_start hi ha]; exact ha
    · rw [mulOuter_eq_end hi]
      exact ⟨(h.of_mOuter hph).index.antisymm (Nat.not_lt.mp hi), hl.latched, hl.none_ran, hl.last_ran⟩
  | mInner =>
    simp only [MulLeftovers, hph] at hl
    rw [microStep_of_mInner hph]
    by_cases hlast : m.j + 1 = m.cfg.W
    · simp only [MulLeftovers, mulInner_ph_last hlast]; exact hl
    · simp only [MulLeftovers, mulInner_ph_next hlast]; exact hl
  | mCarry =>
    simp only [MulLeftovers, hph] at hl
    obtain ⟨hin, hj⟩ := h.of_mCarry hph
    rw [microStep_of_mCarry hph]
    exact leftoversOk_mulCarry s hin h.wf hj hl
  | aStep => exact absurd hph h.ph_ne_aStep

/-- Everything a `MUL` started in `s` keeps at every micro-step. -/
def MulFrom (s m : State) : Prop := MulInv m ∧ AdderKept s m ∧ MulLeftovers s m

theorem mulFrom_runMul {s : State} (hw : Memory.wf s) : MulFrom s (runMul s) := by
  rw [runMul_eq_microSteps]
  refine microSteps_keep (P := MulFrom s) (fun m h => ?_) _ ⟨mulInv_startMul hw, ⟨rfl, rfl, rfl⟩, rfl, rfl⟩
  obtain ⟨hinv, hadder, hleft⟩ := h
  exact ⟨mulInv_microStep hinv, hadder.trans (adderKept_microStep hinv.ph_ne_aStep), mulLeftovers_microStep hinv hleft⟩

theorem runMul_adderKept {s : State} (hw : Memory.wf s) : AdderKept s (runMul s) := by
  obtain ⟨-, hadder, -⟩ := mulFrom_runMul hw
  exact hadder

theorem runMul_leftovers {s : State} (hw : Memory.wf s) :
    (runMul s).i = s.cfg.W ∧ LeftoversOk s (runMul s) s.cfg.W := by
  obtain ⟨-, -, hleft⟩ := mulFrom_runMul hw
  simp only [MulLeftovers, runMul_ph, runMul_cfg] at hleft
  obtain ⟨hi, hok⟩ := hleft
  exact ⟨hi, hi ▸ hok⟩

/-- Settles O25: the product and the leftovers at the end of the run, every other field kept. -/
theorem mulComputesTheExactProduct : Obligations.MulComputesTheExactProduct := by
  intro s h
  have ⟨hcfg, hw, hph⟩ := h
  obtain ⟨hX, hk, hcy⟩ := runMul_adderKept hw
  obtain ⟨hi, hleft⟩ := runMul_leftovers hw
  have ha : (runMul s).a = readLimb s.A (s.cfg.W - 1) := by simpa using hleft.latched hcfg.1.1
  refine ⟨runMul s, exec_mul_of_ready h, runMul_R hw, runMul_val hw, ?_, fun hz => ?_,
    fun n hn hne hz => ?_, ?_⟩
  · refine state_ext ?_ ?_ ?_ rfl hX ?_ ?_ hi rfl ha rfl hk hcy ?_ ?_ ?_ ?_ <;> simp [hph]
  · exact hleft.none_ran (by simpa [readLimb] using hz)
  · simpa [readLimb] using hleft.last_ran n hn (by simpa [readLimb] using hne) (by simpa [readLimb] using hz)
  · exact (exec_wr_cmd_of_command (c := .mul) h rfl).trans (exec_mul_of_ready h)

end Sys2Proof.Machine

namespace Sys2Proof.Machine

/-! ### The multiplier without the zero skip (R114) -/

/-- A micro-step without the skip is a micro-step, or starts an outer step whatever the limb. -/
theorem microStepNoSkip_cases (m : State) :
    microStepNoSkip m = microStep m ∨
      (m.ph = .mOuter ∧ m.i < m.cfg.W ∧ microStepNoSkip m = mulStartOuter m) := by
  unfold microStepNoSkip
  split
  · rename_i hph
    by_cases hi : m.i < m.cfg.W
    · exact .inr ⟨hph, hi, if_pos hi⟩
    · exact .inl (by rw [microStep_of_mOuter hph, mulOuter_eq_end hi, mulOuterNoSkip, if_neg hi, mulEnd])
  · exact .inl rfl

theorem stepsLeft_mulStartOuter_lt {m : State} (hph : m.ph = .mOuter) (hi : m.i < m.cfg.W) :
    stepsLeft (mulStartOuter m) < stepsLeft m := by
  have houter : (m.cfg.W - m.i) * (m.cfg.W + 2) = (m.cfg.W - (m.i + 1)) * (m.cfg.W + 2) + (m.cfg.W + 2) := by
    rw [← Nat.succ_mul]; congr 1; omega
  simp only [stepsLeft, mulStartOuter, hph]
  omega

theorem stepsLeft_microStepNoSkip_lt {m : State} (h : MulInv m) (hrun : m.ph ≠ .idle) :
    stepsLeft (microStepNoSkip m) < stepsLeft m := by
  obtain he | ⟨hph, hi, he⟩ := microStepNoSkip_cases m
  · rw [he]; exact stepsLeft_microStep_lt h.sequencerOk hrun
  · rw [he]; exact stepsLeft_mulStartOuter_lt hph hi

theorem mulInv_microStepNoSkip {m : State} (h : MulInv m) : MulInv (microStepNoSkip m) := by
  obtain he | ⟨hph, hi, he⟩ := microStepNoSkip_cases m
  · rw [he]; exact mulInv_microStep h
  · rw [he]; exact mulInv_mulStartOuter (h.of_mOuter hph) h.wf hi

theorem adderKept_microStepNoSkip {m : State} (h : MulInv m) : AdderKept m (microStepNoSkip m) := by
  obtain he | ⟨-, -, he⟩ := microStepNoSkip_cases m
  · rw [he]; exact adderKept_microStep h.ph_ne_aStep
  · rw [he]; exact ⟨rfl, rfl, rfl⟩

/-- The multiplier without the skip comes to an end: the bound on the steps left counts no skip. -/
theorem exists_microStepsNoSkip_idle {m : State} (h : MulInv m) :
    ∃ n, (microStepsNoSkip n m).ph = .idle ∧ MulInv (microStepsNoSkip n m) ∧ AdderKept m (microStepsNoSkip n m) := by
  induction hk : stepsLeft m using Nat.strong_induction_on generalizing m with
  | _ k ih =>
    by_cases hph : m.ph = .idle
    · exact ⟨0, hph, h, rfl, rfl, rfl⟩
    · obtain ⟨n, hidle, hinv, hadder⟩ :=
        ih _ (hk ▸ stepsLeft_microStepNoSkip_lt h hph) (mulInv_microStepNoSkip h) rfl
      exact ⟨n + 1, hidle, hinv, (adderKept_microStepNoSkip h).trans hadder⟩

/-- Settles O28: both multipliers keep one invariant, which at the end is the product. -/
theorem zeroSkipChangesNoResult : Obligations.ZeroSkipChangesNoResult := by
  intro s h
  obtain ⟨-, hw, -⟩ := h
  obtain ⟨n, hidle, hinv, hX, -, -⟩ := exists_microStepsNoSkip_idle (mulInv_startMul hw)
  refine ⟨n, hidle, runMul_ph s, ?_⟩
  have hR : (microStepsNoSkip n (startMul s)).R = (runMul s).R := by
    have hlen := hinv.wf.2.2.1
    have hval := hinv.of_idle hidle
    simp only [microStepsNoSkip_cfg, microStepsNoSkip_A, microStepsNoSkip_B, startMul_cfg, startMul_A, startMul_B]
      at hlen hval
    rw [eq_limbs_of_val hlen hval, runMul_R hw]
  have hX' : (microStepsNoSkip n (startMul s)).X = (runMul s).X := hX.trans (runMul_adderKept hw).1.symm
  refine state_ext ?_ ?_ ?_ hR hX' ?_ (hidle.trans (runMul_ph s).symm) rfl rfl rfl rfl rfl rfl ?_ ?_ ?_ ?_ <;> simp

/-! ### How many micro-steps a `MUL` takes (R115) -/

/-- The limbs of `A` whose outer step has not begun. -/
def limbsToCome (m : State) : List Limb :=
  match m.ph with
  | .idle => []
  | .mZero => m.A
  | .mOuter => m.A.drop m.i
  | .mInner => m.A.drop (m.i + 1)
  | .mCarry => m.A.drop (m.i + 1)
  | .aStep => []

/-- The micro-steps a `MUL` still takes in a phase: an M_OUTER for each limb to come and for the end test, `W` M_INNER
and an M_CARRY for each that is not zero, and the rest of the outer step that is running. -/
def phaseStepsLeft (p : Phase) (m : State) : Nat :=
  match p with
  | .idle => 0
  | .mZero => if m.ph = .mZero then 1 else 0
  | .mOuter => if m.ph = .idle then 0 else (limbsToCome m).length + 1
  | .mInner => (if m.ph = .mInner then m.cfg.W - m.j else 0) + nonZeroLimbs (limbsToCome m) * m.cfg.W
  | .mCarry => (if m.ph = .mInner ∨ m.ph = .mCarry then 1 else 0) + nonZeroLimbs (limbsToCome m)
  | .aStep => 0

/-- The micro-steps a `MUL` still takes, in all phases together. -/
def mulStepsLeft (m : State) : Nat :=
  phaseStepsLeft .mZero m + phaseStepsLeft .mOuter m + phaseStepsLeft .mInner m + phaseStepsLeft .mCarry m

@[simp] theorem nonZeroLimbs_nil : nonZeroLimbs [] = 0 := rfl

theorem drop_eq_readLimb_cons {d : List Limb} {t : Nat} (h : t < d.length) :
    d.drop t = readLimb d t :: d.drop (t + 1) := by
  rw [List.drop_eq_getElem_cons h]; simp [readLimb, h]

theorem nonZeroLimbs_cons_zero (d : List Limb) : nonZeroLimbs (0#64 :: d) = nonZeroLimbs d := by simp [nonZeroLimbs]

theorem nonZeroLimbs_cons_of_ne {x : Limb} (hx : x ≠ 0#64) (d : List Limb) :
    nonZeroLimbs (x :: d) = nonZeroLimbs d + 1 := by simp [nonZeroLimbs, hx]

theorem nonZeroLimbs_le_length (d : List Limb) : nonZeroLimbs d ≤ d.length := List.countP_le_length

/-- Each micro-step uses up one of the steps its own phase still has, and none of another phase's. -/
theorem phaseStepsLeft_microStep {p : Phase} (hp : p ≠ .idle) {m : State} (h : MulInv m) :
    phaseStepsLeft p m = (if m.ph = p then 1 else 0) + phaseStepsLeft p (microStep m) := by
  obtain ⟨hA, -⟩ := h.wf
  cases hph : m.ph with
  | idle => rw [microStep_of_idle hph, if_neg hp.symm, Nat.zero_add]
  | mZero =>
    rw [microStep_of_mZero hph]
    cases p <;> simp [phaseStepsLeft, limbsToCome, hph, mulZero]
  | mOuter =>
    rw [microStep_of_mOuter hph]
    by_cases hi : m.i < m.cfg.W
    · have hdrop := drop_eq_readLimb_cons (hA ▸ hi)
      by_cases ha : readLimb m.A m.i = 0#64
      · rw [ha] at hdrop
        rw [mulOuter_eq_skip hi ha]
        cases p <;> simp +arith [phaseStepsLeft, limbsToCome, hph, mulSkip, hdrop, nonZeroLimbs_cons_zero]
      · rw [mulOuter_eq_start hi ha]
        cases p <;>
          simp +arith [phaseStepsLeft, limbsToCome, hph, mulStartOuter, hdrop, nonZeroLimbs_cons_of_ne ha, Nat.add_mul]
    · have hnone : m.A.drop m.i = [] := List.drop_eq_nil_of_le (by omega)
      rw [mulOuter_eq_end hi]
      cases p <;> simp [phaseStepsLeft, limbsToCome, hph, mulEnd, hnone]
  | mInner =>
    obtain ⟨-, hj⟩ := h.of_mInner hph
    have hleft : m.cfg.W - m.j = 1 + (m.cfg.W - (m.j + 1)) := by omega
    rw [microStep_of_mInner hph]
    by_cases hlast : m.j + 1 = m.cfg.W
    · cases p <;> simp [phaseStepsLeft, limbsToCome, hph, mulInner_ph_last hlast, hleft, hlast]
    · cases p <;> simp [phaseStepsLeft, limbsToCome, hph, mulInner_ph_next hlast, hleft, Nat.add_assoc]
  | mCarry =>
    rw [microStep_of_mCarry hph]
    cases p <;> simp [phaseStepsLeft, limbsToCome, hph, mulCarry]
  | aStep => exact absurd hph h.ph_ne_aStep

theorem phaseStepsLeft_of_idle (p : Phase) {m : State} (hph : m.ph = .idle) : phaseStepsLeft p m = 0 := by
  cases p <;> simp [phaseStepsLeft, limbsToCome, hph]

/-- The steps taken in a phase and those left in it are together all of that phase's steps. -/
theorem stepsInPhase_add_phaseStepsLeft {p : Phase} (hp : p ≠ .idle) (n : Nat) {m : State} (h : MulInv m) :
    stepsInPhase p n m + phaseStepsLeft p (microSteps n m) = phaseStepsLeft p m := by
  induction n generalizing m with
  | zero => exact Nat.zero_add _
  | succ n ih =>
    rw [phaseStepsLeft_microStep hp h, ← ih (mulInv_microStep h), stepsInPhase, microSteps, Nat.add_assoc]

/-- At the end of the command the steps taken in a phase are all of them. -/
theorem stepsInPhase_of_idle {p : Phase} (hp : p ≠ .idle) {n : Nat} {m : State} (h : MulInv m)
    (hend : (microSteps n m).ph = .idle) : stepsInPhase p n m = phaseStepsLeft p m := by
  rw [← stepsInPhase_add_phaseStepsLeft hp n h, phaseStepsLeft_of_idle p hend, Nat.add_zero]

theorem mulStepsLeft_of_idle {m : State} (hph : m.ph = .idle) : mulStepsLeft m = 0 := by
  simp only [mulStepsLeft, phaseStepsLeft_of_idle _ hph]

theorem mulStepsLeft_microStep {m : State} (h : MulInv m) (hrun : m.ph ≠ .idle) :
    mulStepsLeft m = mulStepsLeft (microStep m) + 1 := by
  have hone : (if m.ph = .mZero then 1 else 0) + (if m.ph = .mOuter then 1 else 0) + (if m.ph = .mInner then 1 else 0)
      + (if m.ph = .mCarry then 1 else 0) = 1 := by
    cases hph : m.ph with
    | idle => exact absurd hph hrun
    | aStep => exact absurd hph h.ph_ne_aStep
    | mZero | mOuter | mInner | mCarry => rfl
  have hZero := phaseStepsLeft_microStep (p := .mZero) (by decide) h
  have hOuter := phaseStepsLeft_microStep (p := .mOuter) (by decide) h
  have hInner := phaseStepsLeft_microStep (p := .mInner) (by decide) h
  have hCarry := phaseStepsLeft_microStep (p := .mCarry) (by decide) h
  unfold mulStepsLeft
  omega

/-- A `MUL` is over after exactly the micro-steps it has left. -/
theorem microSteps_idle_iff (n : Nat) {m : State} (h : MulInv m) :
    (microSteps n m).ph = .idle ↔ mulStepsLeft m ≤ n := by
  induction n generalizing m with
  | zero =>
    by_cases hph : m.ph = .idle
    · exact iff_of_true hph (mulStepsLeft_of_idle hph).le
    · exact iff_of_false hph (by rw [mulStepsLeft_microStep h hph]; exact Nat.not_succ_le_zero _)
  | succ n ih =>
    by_cases hph : m.ph = .idle
    · exact iff_of_true (by rwa [microSteps_of_idle _ hph]) ((mulStepsLeft_of_idle hph).le.trans (Nat.zero_le _))
    · rw [microSteps, ih (mulInv_microStep h), mulStepsLeft_microStep h hph, Nat.succ_le_succ_iff]

theorem phaseStepsLeft_mOuter_startMul {s : State} (hw : Memory.wf s) :
    phaseStepsLeft .mOuter (startMul s) = s.cfg.W + 1 := by
  obtain ⟨hA, -⟩ := hw
  simp [phaseStepsLeft, limbsToCome, hA]

theorem phaseStepsLeft_mInner_startMul (s : State) :
    phaseStepsLeft .mInner (startMul s) = nonZeroLimbs s.A * s.cfg.W := by
  simp [phaseStepsLeft, limbsToCome]

theorem phaseStepsLeft_mCarry_startMul (s : State) : phaseStepsLeft .mCarry (startMul s) = nonZeroLimbs s.A := by
  simp [phaseStepsLeft, limbsToCome]

theorem mulStepsLeft_startMul {s : State} (hw : Memory.wf s) :
    mulStepsLeft (startMul s) = s.cfg.W + 2 + nonZeroLimbs s.A * (s.cfg.W + 1) := by
  have hZero : phaseStepsLeft .mZero (startMul s) = 1 := rfl
  rw [mulStepsLeft, hZero, phaseStepsLeft_mOuter_startMul hw, phaseStepsLeft_mInner_startMul,
    phaseStepsLeft_mCarry_startMul]
  ring

/-- At most every limb is non-zero. -/
theorem mulStepCount_le_bound {z W : Nat} (hz : z ≤ W) : W + 2 + z * (W + 1) ≤ mulStepBound W := by
  calc W + 2 + z * (W + 1) ≤ W + 2 + W * (W + 1) := Nat.add_le_add_left (Nat.mul_le_mul_right _ hz) _
    _ = mulStepBound W := by rw [mulStepBound]; ring

/-- Settles O27: by the micro-steps left in each phase, which at the start are the counts and at the end none. -/
theorem multiplierStepCounts : Obligations.MultiplierStepCounts := by
  intro s h
  obtain ⟨-, hw, -⟩ := h
  have hinv := mulInv_startMul hw
  have hcount := mulStepsLeft_startMul hw
  have hidle := (microSteps_idle_iff _ hinv).mpr hcount.le
  have hbound : s.cfg.W + 2 + nonZeroLimbs s.A * (s.cfg.W + 1) ≤ mulStepBound s.cfg.W :=
    mulStepCount_le_bound ((nonZeroLimbs_le_length _).trans_eq hw.1)
  refine ⟨fun m hm hend => ?_, hidle, (runToIdle_eq_of_idle hbound hidle).symm, ?_, ?_, ?_, ?_, hbound⟩
  · exact absurd ((microSteps_idle_iff m hinv).mp hend) (by omega)
  · exact stepsInPhase_of_idle (by decide) hinv hidle
  · rw [stepsInPhase_of_idle (by decide) hinv hidle, phaseStepsLeft_mOuter_startMul hw]
  · rw [stepsInPhase_of_idle (by decide) hinv hidle, phaseStepsLeft_mInner_startMul]
  · rw [stepsInPhase_of_idle (by decide) hinv hidle, phaseStepsLeft_mCarry_startMul]

end Sys2Proof.Machine

namespace Sys2Proof.Machine

/-! ### The adder's carry found in two ways (R133) -/

/-- A sum of two limbs wraps exactly when it is below its first operand, and then it has lost `2^64`. -/
theorem toNat_add_wrap (x y : Limb) :
    (x + y).toNat + (if (x + y).toNat < x.toNat then 2 ^ 64 else 0) = x.toNat + y.toNat := by
  have hx := x.isLt
  have hy := y.isLt
  rw [BitVec.toNat_add]
  split <;> omega

theorem toNat_add_carry_wrap (x : Limb) (cy : BitVec 1) :
    (x + cy.setWidth 64).toNat + (if (x + cy.setWidth 64).toNat < x.toNat then 2 ^ 64 else 0) = x.toNat + cy.toNat := by
  rw [toNat_add_wrap, BitVec.toNat_setWidth_of_le (by decide)]

/-- A wrapped sum is at most `2^64 - 2`, so the carry in cannot wrap it again. -/
theorem not_both_checks (x y : Limb) (cy : BitVec 1) :
    ¬ ((x + y).toNat < x.toNat ∧ (x + y + cy.setWidth 64).toNat < (x + y).toNat) := by
  rintro ⟨h1, h2⟩
  have hfirst := toNat_add_wrap x y
  have hsecond := toNat_add_carry_wrap (x + y) cy
  rw [if_pos h1] at hfirst
  rw [if_pos h2] at hsecond
  have hy := y.isLt
  have hcy := cy.isLt
  omega

/-- The two-check form is exact: its carry is the sum of its two checks. -/
theorem addTwoCheck_toNat (x y : Limb) (cy : BitVec 1) :
    (addTwoCheck x y cy).1.toNat + (addTwoCheck x y cy).2.toNat * 2 ^ 64 = x.toNat + y.toNat + cy.toNat := by
  have hfirst := toNat_add_wrap x y
  have hsecond := toNat_add_carry_wrap (x + y) cy
  have hboth := not_both_checks x y cy
  simp only [addTwoCheck]
  by_cases h1 : (x + y).toNat < x.toNat <;> by_cases h2 : (x + y + cy.setWidth 64).toNat < (x + y).toNat
  · exact absurd ⟨h1, h2⟩ hboth
  all_goals
    simp only [h1, h2, if_true, if_false, BitVec.or_zero, BitVec.zero_or, BitVec.toNat_ofNat] at hfirst hsecond ⊢
    omega

/-- A limb and a carry are the number they make. -/
theorem limb_carry_ext {p q : Limb × BitVec 1}
    (h : p.1.toNat + p.2.toNat * 2 ^ 64 = q.1.toNat + q.2.toNat * 2 ^ 64) : p = q := by
  have hp := p.1.isLt
  have hq := q.1.isLt
  exact Prod.ext (BitVec.eq_of_toNat_eq (by omega)) (BitVec.eq_of_toNat_eq (by omega))

/-- Settles O34: both forms make the exact sum, and a number has one limb and one carry. -/
theorem carryFormsAgree : Obligations.CarryFormsAgree := by
  intro x y cy
  have hwide := sumLimb_carryOut (addWide x y cy)
  refine ⟨addWide_toNat x y cy, by rw [Nat.add_comm, hwide], limb_carry_ext ?_, not_both_checks x y cy⟩
  rw [addTwoCheck_toNat, hwide, addWide_toNat]

/-! ### The micro-step of the adder (R131, R132) -/

theorem microStep_of_aStep {m : State} (h : m.ph = .aStep) : microStep m = addStep m := by simp [microStep, h]

@[simp] theorem addStep_k (m : State) : (addStep m).k = m.k + 1 := rfl

theorem addStep_ph (m : State) : (addStep m).ph = if m.k + 1 = m.cfg.N then .idle else .aStep := rfl

@[simp] theorem addStep_length_X (m : State) : (addStep m).X.length = m.X.length := List.length_set

/-- The limb and the carry A_STEP leaves are the exact sum of the limbs and the carry it read (R132). -/
theorem addStep_sum {m : State} (h : m.k < m.X.length) :
    (readLimb (addStep m).X m.k).toNat + (addStep m).cy.toNat * 2 ^ 64 =
      (readLimb m.X m.k).toNat + (readLimb m.Y m.k).toNat + m.cy.toNat := by
  rw [addStep, readLimb_set_self h, sumLimb_carryOut, addWide_toNat]

theorem addStep_readLimb_ne {m : State} {t : Nat} (h : t ≠ m.k) : readLimb (addStep m).X t = readLimb m.X t :=
  readLimb_set_ne h.symm _

theorem lowVal_addStep (m : State) : lowVal (addStep m).X m.k = lowVal m.X m.k := lowVal_set_of_le le_rfl _

/-- Settles O31: by the lemmas on A_STEP. -/
theorem adderMicroSteps : Obligations.AdderMicroSteps := by
  refine ⟨fun s => rfl, fun s hph => ⟨addStep s, microStep_of_aStep hph, addStep_sum, fun t => addStep_readLimb_ne,
    addStep_length_X s, rfl, fun hlast => ?_, fun hnext => ?_, rfl⟩⟩
  · rw [addStep_ph, if_pos hlast]
  · rw [addStep_ph, if_neg hnext]

/-! ### The adder's invariant (R135) -/

/-- What an `ADD` started in `s` has reached after `n` of its micro-steps (R135): the low `n` limbs and the carry hold
the sum of the operands' low `n` limbs, the limbs above are still the augend's, and nothing but the adder's own state
has changed. -/
structure AddInv (s : State) (n : Nat) (m : State) : Prop where
  index : m.k = n
  phase : m.ph = if n = s.cfg.N then .idle else .aStep
  length : m.X.length = s.X.length
  sum : lowVal m.X n + m.cy.toNat * 2 ^ (64 * n) = lowVal s.X n + lowVal s.Y n
  upper : ∀ t, n ≤ t → readLimb m.X t = readLimb s.X t
  frame : m = { s with X := m.X, k := m.k, cy := m.cy, ph := m.ph }

theorem addInv_startAdd {s : State} (hN : 1 ≤ s.cfg.N) : AddInv s 0 (startAdd s) where
  index := rfl
  phase := (if_neg (by omega)).symm
  length := rfl
  sum := by simp
  upper _ _ := rfl
  frame := rfl

theorem AddInv.cfg_eq {s m : State} {n : Nat} (h : AddInv s n m) : m.cfg = s.cfg := by rw [h.frame]

theorem AddInv.Y_eq {s m : State} {n : Nat} (h : AddInv s n m) : m.Y = s.Y := by rw [h.frame]

/-- One A_STEP adds limb `n`, with the carry from below, to the sum so far. -/
theorem addInv_addStep {s m : State} {n : Nat} (h : AddInv s n m) (hw : Memory.wf s) (hn : n < s.cfg.N) :
    AddInv s (n + 1) (addStep m) where
  index := by rw [addStep_k, h.index]
  phase := by rw [addStep_ph, h.index, h.cfg_eq]
  length := by rw [addStep_length_X, h.length]
  sum := by
    obtain ⟨-, -, -, hX, hY⟩ := hw
    have hlen := h.length
    have hlimb := addStep_sum (m := m) (by rw [h.index]; omega)
    have hlow := lowVal_addStep m
    have hsum := h.sum
    rw [h.index] at hlimb hlow
    rw [h.upper n le_rfl, h.Y_eq] at hlimb
    rw [lowVal_succ (d := (addStep m).X) (by rw [addStep_length_X]; omega), lowVal_succ (d := s.X) (by omega),
      lowVal_succ (d := s.Y) (by omega), hlow, pow_limb_succ]
    linear_combination hsum + 2 ^ (64 * n) * hlimb
  upper t ht := by
    have hne : t ≠ m.k := by rw [h.index]; omega
    rw [addStep_readLimb_ne hne, h.upper t (by omega)]
  frame := by rw [h.frame]; rfl

/-- R135: the invariant at every micro-step up to the last. -/
theorem addInv_microSteps {s : State} (hN : 1 ≤ s.cfg.N) (hw : Memory.wf s) {n : Nat} (hn : n ≤ s.cfg.N) :
    AddInv s n (microSteps n (startAdd s)) := by
  induction n with
  | zero => exact addInv_startAdd hN
  | succ n ih =>
    have hinv := ih (Nat.le_of_succ_le hn)
    have hph : (microSteps n (startAdd s)).ph = .aStep := hinv.phase.trans (if_neg (Nat.ne_of_lt hn))
    rw [microSteps_succ_last, microStep_of_aStep hph]
    exact addInv_addStep hinv hw hn

theorem runAdd_eq_microSteps (s : State) : runAdd s = microSteps s.cfg.N (startAdd s) := runToIdle_eq_microSteps _ _

/-- Settles O33: by induction on the micro-steps taken. -/
theorem adderInvariant : Obligations.AdderInvariant := by
  intro s h
  obtain ⟨⟨-, hN, -⟩, hw, -⟩ := h
  refine ⟨fun n hn => ?_, (runAdd_eq_microSteps s).symm⟩
  have hinv := addInv_microSteps hN hw hn
  refine ⟨hinv.index, ?_, hinv.sum, hinv.upper⟩
  rw [hinv.phase]
  split_ifs with hlast <;> simp [hlast]

/-! ### The sum an `ADD` ends with (R130, R134) -/

theorem addInv_runAdd {s : State} (h : Ready s) : AddInv s s.cfg.N (runAdd s) := by
  obtain ⟨⟨-, hN, -⟩, hw, -⟩ := h
  rw [runAdd_eq_microSteps]
  exact addInv_microSteps hN hw le_rfl

theorem length_runAdd_X {s : State} (h : Ready s) : (runAdd s).X.length = s.cfg.N := by
  have hlen := (addInv_runAdd h).length
  obtain ⟨-, ⟨-, -, -, hX, -⟩, -⟩ := h
  rw [hlen, hX]

/-- The new `X` and the carry out of it are the whole sum. -/
theorem runAdd_total {s : State} (h : Ready s) :
    val (runAdd s).X + (runAdd s).cy.toNat * 2 ^ (64 * s.cfg.N) = val s.X + val s.Y := by
  have hlen := length_runAdd_X h
  have hsum := (addInv_runAdd h).sum
  obtain ⟨-, ⟨-, -, -, hX, hY⟩, -⟩ := h
  rwa [lowVal_of_length_le hlen.le, lowVal_of_length_le hX.le, lowVal_of_length_le hY.le] at hsum

theorem val_runAdd_lt {s : State} (h : Ready s) : val (runAdd s).X < 2 ^ (64 * s.cfg.N) :=
  length_runAdd_X h ▸ val_lt_pow _

theorem val_runAdd_X {s : State} (h : Ready s) :
    val (runAdd s).X = (val s.X + val s.Y) % 2 ^ (64 * s.cfg.N) := by
  rw [← runAdd_total h, Nat.add_mul_mod_self_right, Nat.mod_eq_of_lt (val_runAdd_lt h)]

theorem runAdd_X {s : State} (h : Ready s) :
    (runAdd s).X = limbs s.cfg.N ((val s.X + val s.Y) % 2 ^ (64 * s.cfg.N)) :=
  eq_limbs_of_val (length_runAdd_X h) (val_runAdd_X h)

/-- The carry that the sum modulo `2^(64N)` discards stays in `cy` (R134). -/
theorem runAdd_cy {s : State} (h : Ready s) :
    (runAdd s).cy = BitVec.ofNat 1 ((val s.X + val s.Y) / 2 ^ (64 * s.cfg.N)) := by
  rw [← runAdd_total h, Nat.add_mul_div_right _ _ (Nat.two_pow_pos _), Nat.div_eq_of_lt (val_runAdd_lt h),
    Nat.zero_add, BitVec.ofNat_toNat, BitVec.setWidth_eq]

theorem runAdd_ph {s : State} (h : Ready s) : (runAdd s).ph = .idle := (addInv_runAdd h).phase.trans (if_pos rfl)

/-- The whole next state of an `ADD` (R130). -/
theorem runAdd_eq {s : State} (h : Ready s) :
    runAdd s = { s with
      X := limbs s.cfg.N ((val s.X + val s.Y) % 2 ^ (64 * s.cfg.N))
      k := s.cfg.N
      cy := BitVec.ofNat 1 ((val s.X + val s.Y) / 2 ^ (64 * s.cfg.N)) } := by
  have hinv := addInv_runAdd h
  have ⟨_, _, hidle⟩ := h
  have hph : (runAdd s).ph = s.ph := (runAdd_ph h).trans hidle.symm
  refine hinv.frame.trans ?_
  rw [runAdd_X h, hinv.index, runAdd_cy h, hph]

/-- Settles O32: the invariant after the last micro-step is the whole sum. -/
theorem addComputesTheModularSum : Obligations.AddComputesTheModularSum := by
  intro s h
  exact ⟨by rw [exec_add_of_ready h, runAdd_eq h], exec_wr_cmd_of_command (c := .add) h rfl⟩

/-- A buffer of all ones holds the largest value of its length. -/
theorem val_replicate_ones (n : Nat) : val (List.replicate n 0xFFFFFFFFFFFFFFFF#64) + 1 = 2 ^ (64 * n) := by
  induction n with
  | zero => rfl
  | succ n ih =>
    rw [List.replicate_succ, val_cons, pow_limb_succ, ← ih]
    have hones : (0xFFFFFFFFFFFFFFFF#64).toNat + 1 = 2 ^ 64 := rfl
    linear_combination hones

/-- Settles O35: the new `X` is the limbs of a number that depends on `val(X) + val(Y)` only. -/
theorem additionLaws : Obligations.AdditionLaws := by
  intro s h
  have ⟨hcfg, ⟨hA, hB, hR, hX, hY⟩, hph⟩ := h
  have hswap : Ready { s with X := s.Y, Y := s.X } := ⟨hcfg, ⟨hA, hB, hR, hY, hX⟩, hph⟩
  refine ⟨_, _, exec_add_of_ready h, exec_add_of_ready hswap, val_runAdd_X h, ?_, fun hzero => ?_,
    fun hones hone => ⟨?_, runAdd_err s, runAdd_cause s⟩⟩
  · rw [runAdd_X hswap, runAdd_X h, Nat.add_comm]
  · have hlt : val s.X < 2 ^ (64 * s.cfg.N) := hX ▸ val_lt_pow s.X
    rw [runAdd_X h, hzero, val_replicate_zero, Nat.add_zero, Nat.mod_eq_of_lt hlt, ← hX, limbs_of_val]
  · rw [runAdd_X h, hones, hone, val_replicate_ones, Nat.mod_self, limbs_zero_value]

end Sys2Proof.Machine

namespace Sys2Proof.Machine

/-! ### The causes of R152 -/

/-- The cause R152's table gives a write of `d`, by what its address names. -/
def writeError (d : Limb) : Option Location → Option ErrorCause
  | none => some .unmapped
  | some .cmd => if decodeCommand d = none then some .reservedCommand else none
  | some .status => some .readOnly
  | some .cfgW => some .readOnly
  | some .cfgN => some .readOnly
  | some (.limb b _) => if b = .R then some .readOnly else none

/-- The cause R152's table gives a read, by what its address names. -/
def readError : Option Location → Option ErrorCause
  | none => some .unmapped
  | some _ => none

/-- The cause R152's table gives an instruction. -/
def instrError (cfg : Config) : Instr → Option ErrorCause
  | .wr addr d => writeError d (locate cfg addr)
  | .rd addr => readError (locate cfg addr)
  | .mul => none
  | .add => none

/-- What an erring instruction hands the host: a read answers zero (R54), a write nothing. -/
def errorAnswer : Instr → List Limb
  | .rd _ => [0x0000000000000000#64]
  | .wr _ _ => []
  | .mul => []
  | .add => []

theorem readError_eq_some_iff {l : Option Location} {e : ErrorCause} :
    readError l = some e ↔ l = none ∧ e = .unmapped := by
  cases l <;> simp [readError, eq_comm]

theorem memWrite_of_writeError {s : State} {addr : HostAddr} {d : Limb} {e : ErrorCause}
    (he : writeError d (locate s.cfg addr) = some e) : memWrite addr d s = flagError e s := by
  cases hl : locate s.cfg addr with
  | none => cases hl ▸ he; exact memWrite_of_unmapped hl d
  | some l =>
    rw [hl] at he
    cases l with
    | cmd =>
      simp only [writeError] at he
      split_ifs at he with hd
      cases he
      simp [memWrite, hl, writeCmd_of_reserved hd]
    | status | cfgW | cfgN => cases he; simp [memWrite, hl]
    | limb b t =>
      simp only [writeError] at he
      split_ifs at he with hb
      cases he
      simp [memWrite, hl, hb]

theorem memWrite_cause_of_no_error {s : State} {addr : HostAddr} {d : Limb}
    (he : writeError d (locate s.cfg addr) = none) : (memWrite addr d s).cause = s.cause := by
  cases hl : locate s.cfg addr with
  | none => rw [hl] at he; cases he
  | some l =>
    rw [hl] at he
    cases l with
    | cmd =>
      have hd : decodeCommand d ≠ none := by simpa [writeError] using he
      obtain ⟨c, hc⟩ := Option.ne_none_iff_exists'.mp hd
      cases c <;> simp [memWrite, hl, writeCmd, hc]
    | status | cfgW | cfgN => cases he
    | limb b t =>
      have hb : b ≠ .R := by simpa [writeError] using he
      rw [memWrite_of_locate_limb hb hl, setLimb_cause]

/-- An instruction the table lists records its cause, answers zero if it is a read, and does nothing else. -/
theorem exec_of_instrError {i : Instr} {s t : State} {e : ErrorCause} (he : instrError s.cfg i = some e)
    (h : exec i s = .next t) : t = flagError e { s with rdata := s.rdata ++ errorAnswer i } := by
  obtain ⟨-, ⟨addr, d, rfl, rfl⟩ | ⟨addr, rfl, rfl⟩ | ⟨rfl, -⟩ | ⟨rfl, -⟩⟩ := exec_next h
  · rw [memWrite_of_writeError he, errorAnswer, List.append_nil]
  · obtain ⟨hl, rfl⟩ := readError_eq_some_iff.mp he
    exact answerRead_of_unmapped hl
  · cases he
  · cases he

/-- The first error since reset is recorded. -/
theorem exec_of_first_error {i : Instr} {s t : State} {e : ErrorCause} (hs : s.cause = 0#3)
    (he : instrError s.cfg i = some e) (h : exec i s = .next t) :
    t = { s with err := 1#1, cause := e.code, rdata := s.rdata ++ errorAnswer i } :=
  (exec_of_instrError he h).trans (if_pos hs)

/-- An instruction the table does not list records no error. -/
theorem exec_cause_of_no_instrError {i : Instr} {s t : State} (he : instrError s.cfg i = none)
    (h : exec i s = .next t) : t.cause = s.cause := by
  obtain ⟨-, ⟨addr, d, rfl, rfl⟩ | ⟨addr, rfl, rfl⟩ | ⟨-, rfl⟩ | ⟨-, rfl⟩⟩ := exec_next h
  · exact memWrite_cause_of_no_error he
  · cases hl : locate s.cfg addr with
    | none => simp [instrError, readError, hl] at he
    | some l => simp [answerRead, readEffect, hl]
  · exact runMul_cause s
  · exact runAdd_cause s

theorem errorCause_code_inj {e f : ErrorCause} : e.code = f.code ↔ e = f := by
  cases e <;> cases f <;> decide

theorem errorCause_code_le (e : ErrorCause) : e.code.toNat ≤ 3 := by
  cases e <;> decide

/-- With no error on record, the cause recorded is the table's. -/
theorem exec_cause_eq_code_iff {i : Instr} {s t : State} (hs : s.cause = 0#3) (h : exec i s = .next t)
    (e : ErrorCause) : t.cause = e.code ↔ instrError s.cfg i = some e := by
  cases hf : instrError s.cfg i with
  | none =>
    rw [exec_cause_of_no_instrError hf h, hs]
    simp [(errorCause_code_ne_zero e).symm]
  | some f =>
    rw [exec_of_first_error hs hf h]
    simp [errorCause_code_inj]

theorem writeError_eq_reserved_iff (cfg : Config) (addr : HostAddr) (d : Limb) :
    writeError d (locate cfg addr) = some .reservedCommand ↔
      addr = 0x0000#16 ∧ d ≠ 0x0000000000000001#64 ∧ d ≠ 0x0000000000000002#64 := by
  rw [← decodeCommand_eq_none_iff]
  constructor
  · intro he
    cases hl : locate cfg addr with
    | none => simp [writeError, hl] at he
    | some l =>
      cases l with
      | cmd => exact ⟨locate_eq_cmd hl, by simpa [writeError, hl] using he⟩
      | status | cfgW | cfgN => simp [writeError, hl] at he
      | limb b t => simp [writeError, hl] at he
  · rintro ⟨rfl, hd⟩
    simp [writeError, hd]

theorem writeError_eq_unmapped_iff (d : Limb) (l : Option Location) :
    writeError d l = some .unmapped ↔ l = none := by
  cases l with
  | none => simp [writeError]
  | some l => cases l <;> simp [writeError]

theorem writeError_eq_readOnly_iff (d : Limb) (l : Option Location) :
    writeError d l = some .readOnly ↔
      l = some .status ∨ l = some .cfgW ∨ l = some .cfgN ∨ ∃ n, l = some (.limb .R n) := by
  cases l with
  | none => simp [writeError]
  | some l => cases l <;> simp [writeError]

theorem instrError_eq_reserved_iff (cfg : Config) (i : Instr) :
    instrError cfg i = some .reservedCommand ↔
      ∃ d, i = .wr 0x0000#16 d ∧ d ≠ 0x0000000000000001#64 ∧ d ≠ 0x0000000000000002#64 := by
  cases i with
  | wr addr d => simp [instrError, writeError_eq_reserved_iff]
  | rd addr => simp [instrError, readError_eq_some_iff]
  | mul | add => simp [instrError]

theorem instrError_eq_unmapped_iff (cfg : Config) (i : Instr) :
    instrError cfg i = some .unmapped ↔
      ∃ addr, locate cfg addr = none ∧ (i = .rd addr ∨ ∃ d, i = .wr addr d) := by
  cases i with
  | wr addr d => simp [instrError, writeError_eq_unmapped_iff]
  | rd addr => simp [instrError, readError_eq_some_iff]
  | mul | add => simp [instrError]

theorem instrError_eq_readOnly_iff (cfg : Config) (i : Instr) :
    instrError cfg i = some .readOnly ↔ ∃ addr d, i = .wr addr d ∧
      (locate cfg addr = some .status ∨ locate cfg addr = some .cfgW ∨ locate cfg addr = some .cfgN ∨
        ∃ n, locate cfg addr = some (.limb .R n)) := by
  cases i with
  | wr addr d => simp [instrError, writeError_eq_readOnly_iff]
  | rd addr => simp [instrError, readError_eq_some_iff]
  | mul | add => simp [instrError]

/-- Settles O18: by the cause the table gives the instruction, if it gives one. -/
theorem errorCauseTable : Obligations.ErrorCauseTable := by
  refine ⟨fun s => ⟨microStep_cause s, microStep_err s⟩, fun i s t hs h => ?_⟩
  have hcode := exec_cause_eq_code_iff hs h
  refine ⟨(hcode .reservedCommand).trans (instrError_eq_reserved_iff ..),
    (hcode .unmapped).trans (instrError_eq_unmapped_iff ..),
    (hcode .readOnly).trans (instrError_eq_readOnly_iff ..), ?_⟩
  cases he : instrError s.cfg i with
  | none =>
    have hkept : t.cause = 0#3 := (exec_cause_of_no_instrError he h).trans hs
    exact ⟨by simp [hkept], fun hne => absurd hkept hne⟩
  | some e =>
    obtain rfl := exec_of_first_error hs he h
    refine ⟨errorCause_code_le e, fun _ => ⟨rfl, ?_, ?_⟩⟩
    · rintro addr rfl; rfl
    · rintro addr d rfl; exact List.append_nil _

/-! ### An error changes what `STATUS` says and nothing else (R151) -/

theorem sameButStatus_iff {s t : State} :
    SameButStatus s t ↔ ∃ err cause, t = { s with err := err, cause := cause } :=
  ⟨fun h => ⟨_, _, h⟩, by rintro ⟨err, cause, rfl⟩; rfl⟩

theorem SameButStatus.symm {s t : State} (h : SameButStatus s t) : SameButStatus t s := by
  obtain ⟨err, cause, rfl⟩ := sameButStatus_iff.mp h
  rfl

theorem SameButStatus.trans {s t u : State} (h : SameButStatus s t) (h' : SameButStatus t u) : SameButStatus s u := by
  obtain ⟨err, cause, rfl⟩ := sameButStatus_iff.mp h
  exact h'

theorem SameButStatus.ready {s t : State} (h : SameButStatus s t) (hs : Ready s) : Ready t := by
  obtain ⟨err, cause, rfl⟩ := sameButStatus_iff.mp h
  exact hs

theorem sameButStatus_flagError_self (e : ErrorCause) (s : State) : SameButStatus s (flagError e s) := by
  unfold flagError
  split <;> rfl

/-- Whatever is on record, `flag_error` touches `STATUS` only, so two blocks that differ there still differ there
only. -/
theorem sameButStatus_flagError {s t : State} (h : SameButStatus s t) (e : ErrorCause) :
    SameButStatus (flagError e s) (flagError e t) :=
  (sameButStatus_flagError_self e s).symm.trans (h.trans (sameButStatus_flagError_self e t))

theorem sameButStatus_setLimb {s t : State} (h : SameButStatus s t) (b : Buf) (n : Nat) (v : Limb) :
    SameButStatus (s.setLimb b n v) (t.setLimb b n v) := by
  obtain ⟨err, cause, rfl⟩ := sameButStatus_iff.mp h
  cases b <;> rfl

/-- No micro-step reads `STATUS`. -/
theorem sameButStatus_microStep {s t : State} (h : SameButStatus s t) : SameButStatus (microStep s) (microStep t) := by
  obtain ⟨err, cause, rfl⟩ := sameButStatus_iff.mp h
  cases hph : s.ph with
  | mOuter =>
    simp only [microStep, hph, mulOuter]
    split_ifs <;> rfl
  | idle => simpa only [microStep, hph] using h
  | mZero | mInner | mCarry | aStep => simp only [microStep, hph]; rfl

theorem sameButStatus_microSteps {s t : State} (h : SameButStatus s t) (n : Nat) :
    SameButStatus (microSteps n s) (microSteps n t) := by
  induction n generalizing s t with
  | zero => exact h
  | succ n ih => exact ih (sameButStatus_microStep h)

theorem sameButStatus_runMul {s t : State} (h : SameButStatus s t) : SameButStatus (runMul s) (runMul t) := by
  obtain ⟨err, cause, rfl⟩ := sameButStatus_iff.mp h
  rw [runMul_eq_microSteps, runMul_eq_microSteps]
  have hstart : SameButStatus (startMul s) (startMul { s with err := err, cause := cause }) := rfl
  exact sameButStatus_microSteps hstart _

theorem sameButStatus_runAdd {s t : State} (h : SameButStatus s t) : SameButStatus (runAdd s) (runAdd t) := by
  obtain ⟨err, cause, rfl⟩ := sameButStatus_iff.mp h
  rw [runAdd_eq_microSteps, runAdd_eq_microSteps]
  have hstart : SameButStatus (startAdd s) (startAdd { s with err := err, cause := cause }) := rfl
  exact sameButStatus_microSteps hstart _

theorem sameButStatus_writeCmd {s t : State} (h : SameButStatus s t) (d : Limb) :
    SameButStatus (writeCmd d s) (writeCmd d t) := by
  unfold writeCmd
  split
  · exact sameButStatus_runMul h
  · exact sameButStatus_runAdd h
  · exact sameButStatus_flagError h _

theorem SameButStatus.cfg_eq {s t : State} (h : SameButStatus s t) : t.cfg = s.cfg := by rw [h]

theorem sameButStatus_memWrite {s t : State} (h : SameButStatus s t) (addr : HostAddr) (d : Limb) :
    SameButStatus (memWrite addr d s) (memWrite addr d t) := by
  unfold memWrite
  rw [h.cfg_eq]
  split
  case h_1 => exact sameButStatus_writeCmd h d
  -- the writable buffers `A`, `B`, `X`, `Y`
  case h_6 | h_7 | h_8 | h_9 => exact sameButStatus_setLimb h ..
  all_goals exact sameButStatus_flagError h _

/-- Only address `0x0001` is `STATUS`. -/
theorem locate_eq_status {cfg : Config} {addr : HostAddr} (h : locate cfg addr = some .status) : addr = 0x0001#16 := by
  by_contra hne
  obtain hlt | ⟨b, hr, ht⟩ := locate_some_cases h
  · have hother : addr = 0x0000#16 ∨ addr = 0x0002#16 ∨ addr = 0x0003#16 := by bv_omega
    obtain rfl | rfl | rfl := hother <;> simp at h
  · simp [locate_of_window hr ht] at h

/-- A read elsewhere than at `STATUS` answers without it. -/
theorem memRead_of_sameButStatus {s t : State} (h : SameButStatus s t) {addr : HostAddr} (ha : addr ≠ 0x0001#16) :
    memRead t addr = memRead s addr := by
  obtain ⟨err, cause, rfl⟩ := sameButStatus_iff.mp h
  cases hl : locate s.cfg addr with
  | none => simp [memRead, hl]
  | some l =>
    simp only [memRead, hl]
    cases l with
    | status => exact absurd (locate_eq_status hl) ha
    | limb b n => cases b <;> rfl
    | cmd | cfgW | cfgN => rfl

theorem sameButStatus_answerRead {s t : State} (h : SameButStatus s t) {addr : HostAddr} (ha : addr ≠ 0x0001#16) :
    SameButStatus (answerRead addr s) (answerRead addr t) := by
  have hread := memRead_of_sameButStatus h ha
  have heffect : SameButStatus (readEffect addr s) (readEffect addr t) := by
    unfold readEffect
    rw [h.cfg_eq]
    split
    · exact h
    · exact sameButStatus_flagError h _
  obtain ⟨err, cause, he⟩ := sameButStatus_iff.mp heffect
  obtain ⟨err', cause', rfl⟩ := sameButStatus_iff.mp h
  rw [answerRead, answerRead, he, hread]
  rfl

/-- Every instruction but a read of `STATUS` does alike in two blocks that differ in `STATUS` only. -/
theorem sameButStatus_exec {s t : State} (h : SameButStatus s t) (hs : Ready s) {i : Instr} (hi : i ≠ .rd 0x0001#16) :
    ∃ s' t', exec i s = .next s' ∧ exec i t = .next t' ∧ SameButStatus s' t' := by
  have ht := h.ready hs
  cases i with
  | wr addr d => exact ⟨_, _, exec_wr_of_ready hs addr d, exec_wr_of_ready ht addr d, sameButStatus_memWrite h addr d⟩
  | rd addr =>
    have ha : addr ≠ 0x0001#16 := fun he => hi (congrArg Instr.rd he)
    exact ⟨_, _, exec_rd_of_ready hs addr, exec_rd_of_ready ht addr, sameButStatus_answerRead h ha⟩
  | mul => exact ⟨_, _, exec_mul_of_ready hs, exec_mul_of_ready ht, sameButStatus_runMul h⟩
  | add => exact ⟨_, _, exec_add_of_ready hs, exec_add_of_ready ht, sameButStatus_runAdd h⟩

theorem exec_status_sticky {i : Instr} {s t : State} (hs : s.cause ≠ 0#3) (h : exec i s = .next t) :
    t.cause = s.cause ∧ t.err = s.err := by
  obtain ⟨herr, hcause⟩ | ⟨hzero, -⟩ := exec_status h
  · exact ⟨hcause, herr⟩
  · exact absurd hzero hs

/-- Settles O17: the block with the error differs from the block without it in `STATUS` only, and instructions keep
that. -/
theorem flagErrorRecordsTheFirst : Obligations.FlagErrorRecordsTheFirst :=
  ⟨fun _ e hs => flagError_of_cause_eq_zero hs e, fun _ e hs => flagError_of_cause_ne_zero hs e, ⟨rfl, rfl, rfl⟩,
    fun _ s e h hi => sameButStatus_exec (sameButStatus_flagError_self e s) h hi, fun _ _ _ => exec_status_sticky⟩

end Sys2Proof.Machine

namespace Sys2Proof.Machine

/-! ### Runs without reset (R155) -/

/-- A step takes at most the next event from the host's script. -/
theorem step_script_suffix {s t : State} (h : step s = .next t) : t.script <:+ s.script := by
  obtain ⟨-, -, rfl⟩ | ⟨req, rest, hs, -, he⟩ | ⟨rest, hs, rfl⟩ | ⟨cw, n, rest, hs, -, rfl⟩ | ⟨-, -, rfl⟩ := step_next h
  · exact List.suffix_rfl
  · rw [(exec_cfg_script he).2, hs]; exact List.suffix_cons _ _
  · rw [hs]; exact List.suffix_cons _ _
  · rw [hs, resetEvent_script, cutCommand_script]; exact List.suffix_cons _ _
  · rw [microStep_script]

theorem run_status_sticky {n : Nat} {s t : State} (hs : s.cause ≠ 0#3)
    (hscript : ∀ e ∈ s.script, e.isReset = false) (h : run n s = .next t) : t.cause = s.cause ∧ t.err = s.err := by
  induction n generalizing s with
  | zero => cases h; exact ⟨rfl, rfl⟩
  | succ n ih =>
    obtain ⟨u, hstep, hrun⟩ := run_succ_next h
    obtain ⟨herr, hcause⟩ | ⟨e, rest, he, hreset⟩ := step_status_sticky hs hstep
    · have hu : ∀ e ∈ u.script, e.isReset = false := fun e he => hscript e ((step_script_suffix hstep).subset he)
      rw [← herr, ← hcause]
      exact ih (hcause ▸ hs) hu hrun
    · have hnot := hscript e (he ▸ List.mem_cons_self)
      rw [hreset] at hnot
      cases hnot

/-- Settles O20: by induction on the steps, the rest of a script without reset being without reset. -/
theorem onlyResetClearsStatus : Obligations.OnlyResetClearsStatus :=
  ⟨fun _ _ _ => run_status_sticky, fun _ _ h => ⟨_, step_of_reset h, rfl, rfl⟩⟩

/-! ### No run stops (R150, R59) -/

theorem writeCmd_ph {s : State} (h : Ready s) (d : Limb) : (writeCmd d s).ph = .idle := by
  unfold writeCmd
  split
  · exact runMul_ph s
  · exact runAdd_ph h
  · exact (flagError_ph _ s).trans h.2.2

/-- Every instruction ends with the port open (R59). -/
theorem exec_ph {i : Instr} {s t : State} (h : exec i s = .next t) : t.ph = .idle := by
  obtain ⟨hs, ⟨addr, d, -, rfl⟩ | ⟨addr, -, rfl⟩ | ⟨-, rfl⟩ | ⟨-, rfl⟩⟩ := exec_next h
  · by_cases ha : addr = 0x0000#16
    · subst ha; simpa [memWrite] using writeCmd_ph hs d
    · exact (memWrite_starts_no_command ha d s).2.1.trans hs.2.2
  · exact (answerRead_ph addr s).trans hs.2.2
  · exact runMul_ph s
  · exact runAdd_ph hs

theorem exec_of_ready {s : State} (h : Ready s) (i : Instr) : ∃ t, exec i s = .next t := by
  cases i with
  | wr addr d => exact ⟨_, exec_wr_of_ready h addr d⟩
  | rd addr => exact ⟨_, exec_rd_of_ready h addr⟩
  | mul => exact ⟨_, exec_mul_of_ready h⟩
  | add => exact ⟨_, exec_add_of_ready h⟩

/-- An idle block executes the request that comes next (R75). -/
theorem step_of_request {s : State} (hph : s.ph = .idle) {req : Request} {rest : List HostEvent}
    (hs : s.script = .request req :: rest) : step s = exec (decodeRequest req) { s with script := rest } := by
  simp [step, serve, hs, hph]

theorem step_of_ready {s : State} (h : Ready s) : ∃ t, step s = .next t := by
  have hph : s.ph = .idle := h.2.2
  match hs : s.script with
  | [] => exact ⟨s, by simp [step, serve, hs, hph]⟩
  | .request req :: rest =>
    have hrest : Ready { s with script := rest } := h
    rw [step_of_request hph hs]
    exact exec_of_ready hrest (decodeRequest req)
  | .reset :: rest => exact ⟨_, step_of_reset hs⟩
  | .resetDuring cw n :: rest =>
    exact ⟨resetEvent (cutCommand cw n { s with script := rest }), by simp [step, serve, hs, hph]⟩

theorem step_ready {s t : State} (hs : Ready s) (h : step s = .next t) : Ready t := by
  refine ⟨step_cfg h ▸ hs.1, step_wf hs.2.1 h, ?_⟩
  obtain ⟨-, hph, rfl⟩ | ⟨req, rest, -, -, he⟩ | ⟨rest, -, rfl⟩ | ⟨cw, n, rest, -, -, rfl⟩ | ⟨hph, -⟩ := step_next h
  · exact hph
  · exact exec_ph he
  · rfl
  · rfl
  · exact absurd hs.2.2 hph

/-- A run from a state a transaction may find completes, in such a state. -/
theorem run_of_ready (n : Nat) {s : State} (h : Ready s) : ∃ t, run n s = .next t ∧ Ready t := by
  induction n generalizing s with
  | zero => exact ⟨s, rfl, h⟩
  | succ n ih =>
    obtain ⟨u, hstep⟩ := step_of_ready h
    rw [run_succ_of_step n hstep]
    exact ih (step_ready h hstep)

/-- Settles O41: by induction on the steps, each of which completes and leaves the port open. -/
theorem noRunEverStops : Obligations.NoRunEverStops := by
  intro n s h
  obtain ⟨t, hrun, -, -, hph⟩ := run_of_ready n h.1
  exact ⟨t, hrun, hph⟩

end Sys2Proof.Machine

namespace Sys2Proof

/-! ### The decoder and the encoder undo each other (R71, R72, R73) -/

theorem decode_encode (i : Instr) : decode (encode i) = .ok i := by
  cases i with
  | wr addr d => exact decode_packRequest_wr addr d
  | rd addr => exact decode_packRequest_rd addr 0#64
  | mul | add => rfl

/-- A request with `we = 1` loses nothing in decoding: all three of its fields are the `WR`'s. -/
theorem encode_decodeRequest_of_we {req : Request} (h : req.getLsbD 80 = true) :
    encode (decodeRequest req) = .port req := by
  have hwe : reqWe req = 1#1 := (reqWe_eq_one_iff req).mpr h
  have hpack := packRequest_fields req
  rw [hwe] at hpack
  rw [decodeRequest, if_pos hwe, encode, hpack]

/-- A request with `we = 0` decodes to an `RD` of its address, whatever its `wdata`. -/
theorem decodeRequest_of_not_we {req : Request} (h : req.getLsbD 80 = false) :
    decodeRequest req = .rd (req.extractLsb' 64 16) := by
  rw [decodeRequest_by_bit80, if_neg (h ▸ Bool.false_ne_true)]

/-- A command word that decodes carries a command, and the instruction is that command's. -/
theorem decode_cmd_eq_ok {cw : CommandWord} {i : Instr} (h : decode (.cmd cw) = .ok i) :
    ∃ c, decodeCommand cw = some c ∧ i = c.instr := by
  cases hc : decodeCommand cw with
  | none => rw [(decode_cmd_eq_reserved_iff cw).mpr hc] at h; cases h
  | some c => rw [decode_cmd_of_command hc] at h; cases h; exact ⟨c, rfl, rfl⟩

/-- Only one word carries each command (R72). -/
theorem encode_instr_of_command {cw : CommandWord} {c : Command} (h : decodeCommand cw = some c) :
    encode c.instr = .cmd cw := by
  unfold decodeCommand at h
  split_ifs at h with hmul hadd <;> cases h
  · rw [hmul]; rfl
  · rw [hadd]; rfl

/-- Settles O2: field by field for a request, word by word for a command. -/
theorem decodeAndEncodeAgree : Obligations.DecodeAndEncodeAgree := by
  refine ⟨fun i _ => decode_encode i, fun req i h => ?_, fun cw i h => ?_⟩
  · rw [decode_port] at h
    cases h
    refine ⟨encode_decodeRequest_of_we, fun hwe => ?_⟩
    rw [decodeRequest_of_not_we hwe]
    exact ⟨rfl, decode_packRequest_rd _⟩
  · obtain ⟨c, hc, rfl⟩ := decode_cmd_eq_ok h
    exact encode_instr_of_command hc

end Sys2Proof

namespace Sys2Proof.Machine

/-! ### What an instruction can do, by its effect -/

/-- Everything an instruction can do: run a command (its own, or the one a `WR` to `CMD` carries), store a limb of a
buffer other than `R`, record an error, or answer a read. -/
theorem exec_effect {i : Instr} {s t : State} (h : exec i s = .next t) :
    Ready s ∧
    (((i = .mul ∨ i = .wr 0x0000#16 0x0000000000000001#64) ∧ t = runMul s) ∨
      ((i = .add ∨ i = .wr 0x0000#16 0x0000000000000002#64) ∧ t = runAdd s) ∨
      (∃ addr d b n, i = .wr addr d ∧ b ≠ .R ∧ locate s.cfg addr = some (.limb b n) ∧ t = s.setLimb b n d) ∨
      (∃ e, t = flagError e s) ∨
      ∃ addr, t = answerRead addr s) := by
  obtain ⟨hr, ⟨addr, d, rfl, rfl⟩ | ⟨addr, -, rfl⟩ | ⟨rfl, rfl⟩ | ⟨rfl, rfl⟩⟩ := exec_next h
  · refine ⟨hr, ?_⟩
    by_cases ha : addr = 0x0000#16
    · subst ha
      have hcmd : memWrite 0x0000#16 d s = writeCmd d s := by simp [memWrite]
      by_cases hmul : d = 0x0000000000000001#64
      · subst hmul; exact .inl ⟨.inr rfl, hcmd⟩
      by_cases hadd : d = 0x0000000000000002#64
      · subst hadd; exact .inr (.inl ⟨.inr rfl, hcmd⟩)
      · exact .inr (.inr (.inr (.inl ⟨.reservedCommand,
          hcmd.trans (writeCmd_of_reserved ((decodeCommand_eq_none_iff d).mpr ⟨hmul, hadd⟩) s)⟩)))
    · obtain ⟨e, he⟩ | ⟨b, n, hb, hl, he⟩ := memWrite_of_ne_cmd ha d s
      · exact .inr (.inr (.inr (.inl ⟨e, he⟩)))
      · exact .inr (.inr (.inl ⟨addr, d, b, n, rfl, hb, hl, he⟩))
  · exact ⟨hr, .inr (.inr (.inr (.inr ⟨addr, rfl⟩)))⟩
  · exact ⟨hr, .inl ⟨.inl rfl, rfl⟩⟩
  · exact ⟨hr, .inr (.inl ⟨.inl rfl, rfl⟩)⟩

theorem runAdd_R {s : State} (h : Ready s) : (runAdd s).R = s.R := by rw [runAdd_eq h]

/-! ### Who changes each buffer (R22) -/

/-- Settles O14: for each thing an instruction can do, the buffers it leaves. -/
theorem whoChangesEachBuffer : Obligations.WhoChangesEachBuffer := by
  intro i s t h
  obtain ⟨hr, ⟨hi, rfl⟩ | ⟨hi, rfl⟩ | ⟨addr, d, b, n, rfl, hb, hl, rfl⟩ | ⟨e, rfl⟩ | ⟨addr, rfl⟩⟩ := exec_effect h
  · have hX := (runMul_adderKept hr.2.1).1
    simp [hi, hX]
  · have hR := runAdd_R hr
    simp [← or_assoc, hi, hR]
  · cases b with
    | R => exact absurd rfl hb
    | A | B | X | Y => simp [State.setLimb, hl]
  · simp
  · simp

/-! ### `R` holds a product (D12) -/

/-- Two operands of `W` limbs and their product are what `HoldsProduct` asks for. -/
theorem holdsProduct_runMul {s : State} (hw : Memory.wf s) : HoldsProduct (runMul s) := by
  have ⟨hA, hB, _⟩ := hw
  refine ⟨val s.A, val s.B, ?_, ?_, runMul_val hw⟩
  · rw [runMul_cfg, ← hA]; exact val_lt_pow _
  · rw [runMul_cfg, ← hB]; exact val_lt_pow _

/-- What `R` holds depends on nothing but `R` and the widths. -/
theorem HoldsProduct.of_same_R {s t : State} (h : HoldsProduct s) (hcfg : t.cfg = s.cfg) (hR : t.R = s.R) :
    HoldsProduct t := by
  rw [HoldsProduct, hcfg, hR]; exact h

/-- Zero is a product (R34). -/
theorem holdsProduct_of_R_eq_reset {s : State} (h : s.R = (State.resetOf s.cfg).R) : HoldsProduct s := by
  refine ⟨0, 0, Nat.two_pow_pos _, Nat.two_pow_pos _, ?_⟩
  rw [h]; exact val_replicate_zero _

/-- An instruction leaves a product in `R`: a `MUL` that of its operands, any other the one that was there. -/
theorem exec_holdsProduct {i : Instr} {s t : State} (hp : HoldsProduct s) (h : exec i s = .next t) :
    HoldsProduct t := by
  obtain ⟨hr, ⟨-, rfl⟩ | ⟨-, rfl⟩ | ⟨addr, d, b, n, -, hb, -, rfl⟩ | ⟨e, rfl⟩ | ⟨addr, rfl⟩⟩ := exec_effect h
  · exact holdsProduct_runMul hr.2.1
  · exact hp.of_same_R (runAdd_cfg s) (runAdd_R hr)
  · exact hp.of_same_R (setLimb_cfg ..) (setLimb_R_of_ne hb ..)
  · exact hp.of_same_R (flagError_cfg ..) (flagError_R ..)
  · exact hp.of_same_R (answerRead_cfg ..) (answerRead_R ..)

/-- Settles O43: resets leave zero, instructions a product, and between transactions no micro-step is taken. -/
theorem rHoldsAProductOrZero : Obligations.RHoldsAProductOrZero := by
  refine ⟨fun cfg => holdsProduct_of_R_eq_reset rfl, fun s t hinv hp h => ?_⟩
  obtain ⟨-, -, rfl⟩ | ⟨req, rest, -, -, he⟩ | ⟨rest, -, rfl⟩ | ⟨cw, n, rest, -, -, rfl⟩ | ⟨hph, -⟩ := step_next h
  · exact hp
  · have hp' : HoldsProduct { s with script := rest } := hp
    exact exec_holdsProduct hp' he
  · exact holdsProduct_of_R_eq_reset rfl
  · exact holdsProduct_of_R_eq_reset rfl
  · exact absurd hinv.1.2.2 hph

/-! ### The invariant between transactions (R26, R29, R59) -/

/-- A micro-step that finds the indices where its phase needs them leaves them in their ranges. -/
theorem microStep_indicesOk {s : State} (hseq : SequencerOk s) (h : IndicesOk s) : IndicesOk (microStep s) := by
  obtain ⟨hi, hj, hk⟩ := h
  cases hph : s.ph with
  | idle => rw [microStep_of_idle hph]; exact ⟨hi, hj, hk⟩
  | mZero => rw [microStep_of_mZero hph]; exact ⟨Nat.zero_le _, hj, hk⟩
  | mOuter =>
    rw [microStep_of_mOuter hph]
    by_cases hlt : s.i < s.cfg.W
    · by_cases ha : readLimb s.A s.i = 0#64
      · rw [mulOuter_eq_skip hlt ha]; exact ⟨hlt, hj, hk⟩
      · rw [mulOuter_eq_start hlt ha]; exact ⟨hi, Nat.zero_le _, hk⟩
    · rw [mulOuter_eq_end hlt]; exact ⟨hi, hj, hk⟩
  | mInner =>
    simp only [SequencerOk, hph] at hseq
    rw [microStep_of_mInner hph]; exact ⟨hi, hseq.2, hk⟩
  | mCarry =>
    simp only [SequencerOk, hph] at hseq
    rw [microStep_of_mCarry hph]; exact ⟨hseq.1, hj, hk⟩
  | aStep =>
    simp only [SequencerOk, hph] at hseq
    rw [microStep_of_aStep hph]; exact ⟨hi, hj, hseq⟩

theorem microSteps_indicesOk (n : Nat) {s : State} (hseq : SequencerOk s) (h : IndicesOk s) :
    IndicesOk (microSteps n s) :=
  (microSteps_keep (P := fun m => SequencerOk m ∧ IndicesOk m)
    (fun _ hm => ⟨microStep_sequencerOk hm.1, microStep_indicesOk hm.1 hm.2⟩) n ⟨hseq, h⟩).2

theorem runMul_indicesOk {s : State} (h : IndicesOk s) : IndicesOk (runMul s) := by
  rw [runMul_eq_microSteps]; exact microSteps_indicesOk _ (sequencerOk_startMul s) h

theorem runAdd_indicesOk {s : State} (hcfg : s.cfg.wf) (h : IndicesOk s) : IndicesOk (runAdd s) := by
  rw [runAdd_eq_microSteps]
  exact microSteps_indicesOk _ (sequencerOk_startAdd hcfg) ⟨h.1, h.2.1, Nat.zero_le _⟩

theorem exec_indicesOk {i : Instr} {s t : State} (hs : IndicesOk s) (h : exec i s = .next t) : IndicesOk t := by
  obtain ⟨hr, ⟨-, rfl⟩ | ⟨-, rfl⟩ | ⟨addr, d, b, n, -, -, -, rfl⟩ | ⟨e, rfl⟩ | ⟨addr, rfl⟩⟩ := exec_effect h
  · exact runMul_indicesOk hs
  · exact runAdd_indicesOk hr.1 hs
  all_goals simpa [IndicesOk] using hs

theorem indicesOk_resetEvent (s : State) : IndicesOk (resetEvent s) :=
  ⟨Nat.zero_le _, Nat.zero_le _, Nat.zero_le _⟩

/-- Every step keeps the sequencer's indices in their ranges (R26). -/
theorem step_indicesOk {s t : State} (hph : s.ph = .idle) (hs : IndicesOk s) (h : step s = .next t) : IndicesOk t := by
  obtain ⟨-, -, rfl⟩ | ⟨req, rest, -, -, he⟩ | ⟨rest, -, rfl⟩ | ⟨cw, n, rest, -, -, rfl⟩ | ⟨hne, -⟩ := step_next h
  · exact hs
  · have hs' : IndicesOk { s with script := rest } := hs
    exact exec_indicesOk hs' he
  · exact indicesOk_resetEvent _
  · exact indicesOk_resetEvent _
  · exact absurd hph hne

/-- Every step leaves a code of R152 in `CAUSE`. -/
theorem step_cause_le {s t : State} (hs : s.cause.toNat ≤ 3) (h : step s = .next t) : t.cause.toNat ≤ 3 := by
  obtain (⟨-, hc⟩ | ⟨-, e, -, hc⟩) | ⟨⟨-, hc⟩, -⟩ := step_status h
  · rwa [hc]
  · rw [hc]; exact errorCause_code_le e
  · simp [hc]

/-- Settles O40: one lemma on steps for each part of the invariant. -/
theorem stepKeepsTheInvariant : Obligations.StepKeepsTheInvariant := by
  intro s t ⟨hready, hindices, hiff, hle⟩ h
  exact ⟨step_ready hready h, step_indicesOk hready.2.2 hindices h, step_err_iff_cause hiff h, step_cause_le hle h⟩

/-- Settles O39: the reset state of each configuration, field by field. -/
theorem invariantHoldsAtReset : Obligations.InvariantHoldsAtReset := by
  have hreset (cfg : Config) (script : List HostEvent) (hcfg : cfg.wf) :
      BlockInv { State.resetOf cfg with script := script } := by
    have hstatus : 0#1 = 1#1 ↔ 0#3 ≠ 0#3 := by decide
    exact ⟨⟨hcfg, resetOf_wf cfg, rfl⟩, ⟨Nat.zero_le _, Nat.zero_le _, Nat.zero_le _⟩, hstatus, Nat.zero_le _⟩
  exact ⟨hreset Config.reference [] (by decide), hreset⟩

/-- Settles O38: what the phase asks of the indices puts them inside the buffers of the configuration's lengths. -/
theorem engineAccessesStayInBounds : Obligations.EngineAccessesStayInBounds := by
  intro s _ hw hseq
  have ⟨hA, hB, hR, hX, hY⟩ := hw
  refine ⟨microStep_wf hw, microStep_sequencerOk hseq,
    fun hph hne => ?_, fun hph => ?_, fun hph => ?_, fun hph => ?_⟩
  all_goals
    simp only [SequencerOk, hph] at hseq
    omega

end Sys2Proof.Machine

namespace Sys2Proof.Machine

/-! ### The address map by address numbers (R52, R53) -/

theorem forall_buf {p : Buf → Prop} : (∀ b, p b) ↔ p .A ∧ p .B ∧ p .R ∧ p .X ∧ p .Y :=
  ⟨fun h => ⟨h _, h _, h _, h _, h _⟩, fun ⟨hA, hB, hR, hX, hY⟩ b => by cases b <;> assumption⟩

/-- The address of limb `t` of a window as a number: 4096 addresses to a region (R51). -/
theorem limbAddr_eq_ofNat {b : Buf} {t : Nat} (ht : t < 4096) :
    limbAddr b t = BitVec.ofNat 16 ((bufRegion b).toNat * 4096 + t) := by
  have hb := (bufRegion b).isLt
  apply BitVec.eq_of_toNat_eq
  rw [addr_toNat, region_limbAddr, index_limbAddr, BitVec.toNat_ofNat, BitVec.toNat_ofNat]
  omega

/-- The row of the map for a buffer's window (R52). -/
theorem locate_window {cfg : Config} (hw : cfg.wf) (b : Buf) {t : Nat} (ht : t < bufLen cfg b) :
    locate cfg (BitVec.ofNat 16 ((bufRegion b).toNat * 4096 + t)) = some (.limb b t) := by
  rw [← limbAddr_eq_ofNat (ht.trans_le (bufLen_le hw b)), locate_limbAddr hw ht]

/-- An address's fields put it in a buffer's window exactly when its number lies in the window's range. -/
theorem window_iff_range {cfg : Config} (hw : cfg.wf) (addr : HostAddr) (b : Buf) :
    (region addr = bufRegion b ∧ (index addr).toNat < bufLen cfg b) ↔
      (bufRegion b).toNat * 4096 ≤ addr.toNat ∧ addr.toNat < (bufRegion b).toNat * 4096 + bufLen cfg b := by
  have hlen := bufLen_le hw b
  have hindex := (index addr).isLt
  rw [addr_toNat addr, ← BitVec.toNat_inj]
  omega

/-- The unmapped addresses: past the control registers and outside every window's range. -/
theorem locate_eq_none_iff {cfg : Config} (hw : cfg.wf) (addr : HostAddr) :
    locate cfg addr = none ↔ 4 ≤ addr.toNat ∧ ∀ b, ¬ ((bufRegion b).toNat * 4096 ≤ addr.toNat ∧
      addr.toNat < (bufRegion b).toNat * 4096 + bufLen cfg b) := by
  simp only [← window_iff_range hw]
  refine ⟨fun h => ⟨four_le_of_not_control ?_ ?_ ?_ ?_, fun b hb => ?_⟩, fun ⟨hctl, hwin⟩ => locate_eq_none hctl hwin⟩
  case refine_5 => simp [locate_of_window hb.1 hb.2] at h
  all_goals rintro rfl; simp at h

/-- Settles O9: the windows' rows by `locate_window`, the holes as what lies between the windows' ranges. -/
theorem addressMapRows : Obligations.AddressMapRows := by
  intro cfg hw
  refine ⟨⟨rfl, rfl, rfl, rfl⟩, fun t => locate_window hw .A, fun t => locate_window hw .B,
    fun t => locate_window hw .R, fun t => locate_window hw .X, fun t => locate_window hw .Y, fun addr => ?_⟩
  have hlt := addr.isLt
  rw [locate_eq_none_iff hw, forall_buf]
  obtain ⟨⟨hW1, hW2⟩, hN1, hN2⟩ := hw
  simp only [bufRegion, bufLen, BitVec.toNat_ofNat]
  omega

/-! ### One limb written (R57) -/

theorem length_buf {s : State} (h : Memory.wf s) (b : Buf) : (s.buf b).length = bufLen s.cfg b := by
  obtain ⟨hA, hB, hR, hX, hY⟩ := h
  cases b <;> assumption

/-- A write changes the one buffer it names (R21: five disjoint storages). -/
theorem buf_setLimb (s : State) (b b' : Buf) (t : Nat) (v : Limb) :
    (s.setLimb b t v).buf b' = if b' = b then (s.buf b').set t v else s.buf b' := by
  cases b <;> cases b' <;> rfl

theorem buf_setLimb_self (s : State) (b : Buf) (t : Nat) (v : Limb) : (s.setLimb b t v).buf b = (s.buf b).set t v := by
  rw [buf_setLimb, if_pos rfl]

theorem buf_setLimb_of_ne {b b' : Buf} (h : b' ≠ b) (s : State) (t : Nat) (v : Limb) :
    (s.setLimb b t v).buf b' = s.buf b' := by
  rw [buf_setLimb, if_neg h]

theorem setLimb_frame (s : State) (b : Buf) (t : Nat) (v : Limb) :
    let u := s.setLimb b t v
    u = { s with A := u.A, B := u.B, R := u.R, X := u.X, Y := u.Y } := by
  cases b <;> rfl

theorem setLimb_setLimb (s : State) (b : Buf) (t : Nat) (v w : Limb) :
    (s.setLimb b t v).setLimb b t w = s.setLimb b t w := by
  cases b <;> simp [State.setLimb]

theorem setLimb_ready {s : State} (h : Ready s) (b : Buf) (t : Nat) (v : Limb) : Ready (s.setLimb b t v) :=
  ⟨by simpa using h.1, setLimb_wf h.2.1 b t v, by simpa using h.2.2⟩

/-- A `WR` to a limb inside a buffer other than `R` stores it. -/
theorem exec_wr_limbAddr {s : State} (h : Ready s) {b : Buf} (hb : b ≠ .R) {t : Nat} (ht : t < bufLen s.cfg b)
    (d : Limb) : exec (.wr (limbAddr b t) d) s = .next (s.setLimb b t d) := by
  rw [exec_wr_of_ready h, memWrite_of_locate_limb hb (locate_limbAddr h.1 ht)]

/-- An `RD` of a limb inside a buffer answers it. -/
theorem exec_rd_limbAddr {s : State} (h : Ready s) {b : Buf} {t : Nat} (ht : t < bufLen s.cfg b) :
    exec (.rd (limbAddr b t)) s = .next { s with rdata := s.rdata ++ [readLimb (s.buf b) t] } :=
  exec_rd_of_locate h (locate_limbAddr h.1 ht)

theorem memRead_setLimb_self {s : State} (h : Ready s) {b : Buf} {t : Nat} (ht : t < bufLen s.cfg b) (d : Limb) :
    memRead (s.setLimb b t d) (limbAddr b t) = d := by
  have hlen : t < (s.buf b).length := by rwa [length_buf h.2.1]
  simp only [memRead, setLimb_cfg, locate_limbAddr h.1 ht, locationValue, buf_setLimb_self, readLimb_set_self hlen]

/-- No other address reads the limb: the buffers are disjoint, and a limb has one address. -/
theorem memRead_setLimb_of_ne {addr : HostAddr} {b : Buf} {t : Nat} (ha : addr ≠ limbAddr b t) (d : Limb) (s : State) :
    memRead (s.setLimb b t d) addr = memRead s addr := by
  cases hl : locate s.cfg addr with
  | none => simp only [memRead, setLimb_cfg, hl]
  | some l =>
    simp only [memRead, setLimb_cfg, hl]
    cases l with
    | cmd => rfl
    | status | cfgW | cfgN => simp [locationValue, statusWord]
    | limb b' n =>
      have haddr := locate_limb_addr hl
      simp only [locationValue]
      by_cases hb : b' = b
      · subst hb
        have hn : t ≠ n := fun he => ha (he ▸ haddr)
        rw [buf_setLimb_self, readLimb_set_ne hn]
      · rw [buf_setLimb_of_ne hb]

/-- Settles O11: the write is `setLimb` of that limb. -/
theorem writeChangesOneLimbOnly : Obligations.WriteChangesOneLimbOnly := by
  intro s b t d h hb ht
  have hagain := exec_wr_limbAddr (setLimb_ready h b t d) hb (t := t) (by rwa [setLimb_cfg]) d
  rw [setLimb_setLimb] at hagain
  exact ⟨s.setLimb b t d, exec_wr_limbAddr h hb ht d, memRead_setLimb_self h ht d,
    fun addr ha => memRead_setLimb_of_ne ha d s, buf_setLimb_self s b t d, fun b' hb' => buf_setLimb_of_ne hb' s t d,
    setLimb_frame s b t d, hagain⟩

end Sys2Proof.Machine

namespace Sys2Proof.Machine

/-! ### The guard refuses (R59, D14, U2) -/

/-- Every instruction asks the port's guard, and asks it alone. -/
theorem exec_eq_atPort (i : Instr) (s : State) : ∃ act, exec i s = atPort s act := by
  cases i <;> exact ⟨_, rfl⟩

theorem atPort_of_not_cfg_wf {s : State} (h : ¬ s.cfg.wf) (act : State → State) :
    atPort s act = .refused .widthOutOfBounds := if_pos h

theorem atPort_of_not_memory_wf {s : State} (hcfg : s.cfg.wf) (h : ¬ Memory.wf s) (act : State → State) :
    atPort s act = .refused .widthMismatch := by
  rw [atPort, if_neg (not_not.mpr hcfg), if_pos h]

theorem atPort_of_running {s : State} (hcfg : s.cfg.wf) (hw : Memory.wf s) (h : s.ph ≠ .idle) (act : State → State) :
    atPort s act = .refused .portClosed := by
  rw [atPort, if_neg (not_not.mpr hcfg), if_neg (not_not.mpr hw), if_pos h]

/-- Settles O16: by the guard's first two questions. -/
theorem noBlockNoInstruction : Obligations.NoBlockNoInstruction := by
  intro i s
  obtain ⟨act, hexec⟩ := exec_eq_atPort i s
  rw [hexec]
  exact ⟨fun h => atPort_of_not_cfg_wf h act, fun hcfg h => atPort_of_not_memory_wf hcfg h act⟩

theorem resume_of_wf {s : State} (hcfg : s.cfg.wf) (hw : Memory.wf s) : resume s = .next (microStep s) := by
  rw [resume, if_neg (not_not.mpr hcfg), if_neg (not_not.mpr hw)]

theorem step_of_running {s : State} (hph : s.ph ≠ .idle) (hs : ∀ rest, s.script ≠ .reset :: rest) :
    step s = resume s := by
  unfold step
  split
  · exact absurd ‹_› (hs _)
  · exact if_neg hph

/-- Settles O15: by the guard's last question, and by the phase a step looks at when no reset comes. -/
theorem portIsClosedWhileACommandRuns : Obligations.PortIsClosedWhileACommandRuns := by
  intro s hcfg hw hph
  refine ⟨fun i => ?_, fun hs => (step_of_running hph hs).trans (resume_of_wf hcfg hw)⟩
  obtain ⟨act, hexec⟩ := exec_eq_atPort i s
  rw [hexec, atPort_of_running hcfg hw hph]

/-! ### What a step does with each kind of event (R75, R159, R170) -/

theorem step_of_nil {s : State} (hph : s.ph = .idle) (hs : s.script = []) : step s = .next s := by
  simp [step, serve, hs, hph]

/-- Settles O6: by `step_of_nil`. -/
theorem idleBlockKeepsItsState : Obligations.IdleBlockKeepsItsState := fun _ => step_of_nil

/-- A command cut short leaves reset nothing to remember: reset keeps what no command changes. -/
theorem resetEvent_cutCommand (cw : CommandWord) (n : Nat) (s : State) :
    resetEvent (cutCommand cw n s) = resetEvent s := by
  simp [resetEvent]

theorem step_of_resetDuring {s : State} (hph : s.ph = .idle) {cw : CommandWord} {n : Nat} {rest : List HostEvent}
    (hs : s.script = .resetDuring cw n :: rest) : step s = .next (resetEvent { s with script := rest }) := by
  have hcut : step s = .next (resetEvent (cutCommand cw n { s with script := rest })) := by simp [step, serve, hs, hph]
  rw [hcut, resetEvent_cutCommand]

/-- Settles O22: either event leaves what the reset event makes of the state before. -/
theorem resetIsTotal : Obligations.ResetIsTotal :=
  ⟨fun _ _ => step_of_reset, fun _ _ _ _ hph hs => step_of_resetDuring hph hs⟩

/-- The request that carries an encoded word does what the word's instruction does (R72, R75). -/
theorem exec_decodeRequest_request {s : State} (h : Ready s) {e : Encoded} {i : Instr} (he : decode e = .ok i) :
    exec (decodeRequest e.request) s = exec i s := by
  cases e with
  | port req => rw [decode_port] at he; cases he; rfl
  | cmd cw =>
    obtain ⟨c, hc, rfl⟩ := decode_cmd_eq_ok he
    have hwr : decodeRequest (Encoded.cmd cw).request = .wr 0x0000#16 cw := by simp [decodeRequest, Encoded.request]
    rw [hwr, exec_wr_cmd_of_command h hc]

theorem step_of_encoded {s : State} (h : Ready s) {e : Encoded} {i : Instr} (he : decode e = .ok i)
    {rest : List HostEvent} (hs : s.script = .request e.request :: rest) :
    step s = exec i { s with script := rest } := by
  have hrest : Ready { s with script := rest } := h
  rw [step_of_request h.2.2 hs, exec_decodeRequest_request hrest he]

/-- Settles O5: a step decodes the request, and a command word's request is its `WR` to `CMD`. -/
theorem stepRunsTheDecodedInstruction : Obligations.StepRunsTheDecodedInstruction :=
  ⟨fun _ _ _ hph hs => step_of_request hph hs, fun _ _ _ _ h he hs => step_of_encoded h he hs⟩

/-- A step runs the instruction whose own encoding the host sends next. -/
theorem step_of_encode {s : State} (h : Ready s) (i : Instr) {rest : List HostEvent}
    (hs : s.script = .request (encode i).request :: rest) : step s = exec i { s with script := rest } :=
  step_of_encoded h (decode_encode i) hs

/-- Settles O46: each statement but `RESET` is the request of its instruction's encoding. -/
theorem statementsRunTheirInstructions : Obligations.StatementsRunTheirInstructions := fun _ h =>
  ⟨step_of_encode h .mul, step_of_encode h .add, step_of_reset,
    fun addr d => step_of_encode h (.wr addr.addr (BitVec.ofNat 64 d)), fun addr => step_of_encode h (.rd addr.addr)⟩

/-! ### `MUL` forgets the old product (R103) -/

/-- The first micro-step of a `MUL` zeroes `R`, so the whole run is a run from there. -/
theorem runMul_eq_after_mZero (s : State) :
    runMul s = microSteps (s.cfg.W ^ 2 + 2 * s.cfg.W + 1) (mulZero (startMul s)) := by
  rw [runMul_eq_microSteps]; rfl

/-- Settles O30: M_ZERO leaves one state whatever `R` held. -/
theorem oldProductDoesNotEnter : Obligations.OldProductDoesNotEnter := by
  intro s r h hr
  have ⟨hcfg, ⟨hA, hB, _, hX, hY⟩, hph⟩ := h
  have hready : Ready { s with R := r } := ⟨hcfg, ⟨hA, hB, hr, hX, hY⟩, hph⟩
  have hzero : mulZero (startMul { s with R := r }) = mulZero (startMul s) := rfl
  rw [exec_mul_of_ready hready, exec_mul_of_ready h, runMul_eq_after_mZero, runMul_eq_after_mZero, hzero]

/-! ### Whole scripts (R78, R79, R179) -/

/-- A step takes the event it serves off the script, and no more. -/
theorem step_takes_event {s : State} (h : Ready s) {e : HostEvent} {rest : List HostEvent} (hs : s.script = e :: rest) :
    ∃ t, step s = .next t ∧ Ready t ∧ t.script = rest := by
  obtain ⟨t, ht⟩ := step_of_ready h
  refine ⟨t, ht, step_ready h ht, ?_⟩
  obtain ⟨he, -⟩ | ⟨req, rest', he, -, hexec⟩ | ⟨rest', he, rfl⟩ | ⟨cw, n, rest', he, -, rfl⟩ | ⟨hph, -⟩ := step_next ht
  · rw [hs] at he; cases he
  · rw [hs] at he; cases he; exact (exec_cfg_script hexec).2
  · rw [hs] at he; cases he; rfl
  · rw [hs] at he; cases he; simp
  · exact absurd h.2.2 hph

/-- As many steps as there are events do the whole script. -/
theorem run_script_length {s : State} (h : Ready s) :
    ∃ t, run s.script.length s = .next t ∧ Ready t ∧ t.script = [] := by
  induction hs : s.script generalizing s with
  | nil => exact ⟨s, rfl, h, hs⟩
  | cons e rest ih =>
    obtain ⟨u, hstep, hu, hrest⟩ := step_takes_event h hs
    rw [List.length_cons, run_succ_of_step _ hstep]
    exact ih hu hrest

theorem run_of_nil (n : Nat) {s : State} (hph : s.ph = .idle) (hs : s.script = []) : run n s = .next s := by
  induction n with
  | zero => rfl
  | succ n ih => rw [run_succ_of_step n (step_of_nil hph hs), ih]

/-- Settles O42: one event a step to the script's end, and there the block idles. -/
theorem scriptRunsToItsEnd : Obligations.ScriptRunsToItsEnd := by
  intro s h
  obtain ⟨t, hrun, ⟨-, -, hph⟩, hs⟩ := run_script_length h.1
  exact ⟨t, hrun, hs, hph, fun n => (run_add hrun).trans (run_of_nil n hph hs)⟩

/-- An `ADD` leaves a block that can take the next one, with the same addend and widths. -/
theorem runAdd_ready {s : State} (h : Ready s) : Ready (runAdd s) :=
  ⟨by simpa using h.1, runAdd_wf h.2.1, runAdd_ph h⟩

/-- Settles O36: by induction on the `ADD`s, each of which adds `Y` once modulo `2^(64N)`. -/
theorem repeatedAddAccumulates : Obligations.RepeatedAddAccumulates := by
  intro s m h hs
  induction m generalizing s with
  | zero =>
    have ⟨_, ⟨_, _, _, hX, _⟩, _⟩ := h
    have hlt : val s.X < 2 ^ (64 * s.cfg.N) := hX ▸ val_lt_pow s.X
    have hnil : s.script = [] := hs
    refine ⟨s, rfl, hnil, ?_, by rw [← hnil]⟩
    rw [Nat.zero_mul, Nat.add_zero, Nat.mod_eq_of_lt hlt]
  | succ m ih =>
    have hu : Ready { s with script := List.replicate m (.request (encode .add).request) } := h
    have hstep := (step_of_encode h .add hs).trans (exec_add_of_ready hu)
    have hval := val_runAdd_X hu
    obtain ⟨t, hrun, hdone, hX, hframe⟩ := ih _ (runAdd_ready hu) (runAdd_script _)
    refine ⟨t, (run_succ_of_step m hstep).trans hrun, hdone, ?_, ?_⟩
    · rw [hX, hval, runAdd_cfg, runAdd_Y, Nat.mod_add_mod]
      congr 1; ring
    · rw [hframe, runAdd_eq hu]

end Sys2Proof.Machine

namespace Sys2Proof.Machine

/-! ### The sequencer's leftovers (R24, R27) -/

theorem sameButSequencer_iff {s t : State} :
    SameButSequencer s t ↔ s.ph = .idle ∧
      ∃ i j a c k cy, t = { s with i := i, j := j, a := a, c := c, k := k, cy := cy } :=
  ⟨fun ⟨hph, h⟩ => ⟨hph, _, _, _, _, _, _, h⟩, by rintro ⟨hph, i, j, a, c, k, cy, rfl⟩; exact ⟨hph, rfl⟩⟩

theorem SameButSequencer.ready {s t : State} (h : SameButSequencer s t) (hs : Ready s) : Ready t := by
  obtain ⟨-, i, j, a, c, k, cy, rfl⟩ := sameButSequencer_iff.mp h
  exact hs

theorem SameButSequencer.cfg_eq {s t : State} (h : SameButSequencer s t) : t.cfg = s.cfg := by rw [h.2]

theorem SameButSequencer.with_script {s t : State} (h : SameButSequencer s t) (script : List HostEvent) :
    SameButSequencer { s with script := script } { t with script := script } := by
  obtain ⟨hph, i, j, a, c, k, cy, rfl⟩ := sameButSequencer_iff.mp h
  exact ⟨hph, rfl⟩

theorem sameButSequencer_flagError {s t : State} (h : SameButSequencer s t) (e : ErrorCause) :
    SameButSequencer (flagError e s) (flagError e t) := by
  obtain ⟨hph, i, j, a, c, k, cy, rfl⟩ := sameButSequencer_iff.mp h
  refine ⟨by simpa using hph, ?_⟩
  unfold flagError
  split <;> rfl

theorem sameButSequencer_setLimb {s t : State} (h : SameButSequencer s t) (b : Buf) (n : Nat) (v : Limb) :
    SameButSequencer (s.setLimb b n v) (t.setLimb b n v) := by
  obtain ⟨hph, i, j, a, c, k, cy, rfl⟩ := sameButSequencer_iff.mp h
  refine ⟨by simpa using hph, ?_⟩
  cases b <;> rfl

/-- The product depends on the operands only, so both runs leave the same `R`. -/
theorem sameButSequencer_runMul {s t : State} (h : SameButSequencer s t) (hw : Memory.wf s) :
    SameButSequencer (runMul s) (runMul t) := by
  obtain ⟨hph, i, j, a, c, k, cy, rfl⟩ := sameButSequencer_iff.mp h
  have hwt : Memory.wf { s with i := i, j := j, a := a, c := c, k := k, cy := cy } := hw
  have hR := (runMul_R hwt).trans (runMul_R hw).symm
  have hX := (runMul_adderKept hwt).1.trans (runMul_adderKept hw).1.symm
  refine ⟨runMul_ph s, state_ext ?_ ?_ ?_ hR hX ?_ ?_ rfl rfl rfl rfl rfl rfl ?_ ?_ ?_ ?_⟩ <;> simp

/-- An `ADD` starts `k` and `cy` afresh and touches no other sequencer register. -/
theorem sameButSequencer_runAdd {s t : State} (h : SameButSequencer s t) (hs : Ready s) :
    SameButSequencer (runAdd s) (runAdd t) := by
  obtain ⟨hph, i, j, a, c, k, cy, rfl⟩ := sameButSequencer_iff.mp h
  have ht : Ready { s with i := i, j := j, a := a, c := c, k := k, cy := cy } := hs
  rw [runAdd_eq hs, runAdd_eq ht]
  exact ⟨hph, rfl⟩

theorem sameButSequencer_writeCmd {s t : State} (h : SameButSequencer s t) (hs : Ready s) (d : Limb) :
    SameButSequencer (writeCmd d s) (writeCmd d t) := by
  unfold writeCmd
  split
  · exact sameButSequencer_runMul h hs.2.1
  · exact sameButSequencer_runAdd h hs
  · exact sameButSequencer_flagError h _

theorem sameButSequencer_memWrite {s t : State} (h : SameButSequencer s t) (hs : Ready s) (addr : HostAddr) (d : Limb) :
    SameButSequencer (memWrite addr d s) (memWrite addr d t) := by
  unfold memWrite
  rw [h.cfg_eq]
  split
  case h_1 => exact sameButSequencer_writeCmd h hs d
  -- the writable buffers `A`, `B`, `X`, `Y`
  case h_6 | h_7 | h_8 | h_9 => exact sameButSequencer_setLimb h ..
  all_goals exact sameButSequencer_flagError h _

/-- No address reads a sequencer register (R27). -/
theorem memRead_of_sameButSequencer {s t : State} (h : SameButSequencer s t) (addr : HostAddr) :
    memRead t addr = memRead s addr := by
  obtain ⟨-, i, j, a, c, k, cy, rfl⟩ := sameButSequencer_iff.mp h
  simp only [memRead]
  cases locate s.cfg addr with
  | none => rfl
  | some l =>
    cases l with
    | limb b n => cases b <;> rfl
    | cmd | status | cfgW | cfgN => rfl

theorem sameButSequencer_readEffect {s t : State} (h : SameButSequencer s t) (addr : HostAddr) :
    SameButSequencer (readEffect addr s) (readEffect addr t) := by
  unfold readEffect
  rw [h.cfg_eq]
  split
  · exact h
  · exact sameButSequencer_flagError h _

theorem sameButSequencer_answerRead {s t : State} (h : SameButSequencer s t) (addr : HostAddr) :
    SameButSequencer (answerRead addr s) (answerRead addr t) := by
  have hread := memRead_of_sameButSequencer h addr
  obtain ⟨hph, i, j, a, c, k, cy, he⟩ := sameButSequencer_iff.mp (sameButSequencer_readEffect h addr)
  have hrdata : t.rdata = s.rdata := by rw [h.2]
  rw [answerRead, answerRead, he, hread, hrdata]
  exact ⟨hph, rfl⟩

theorem sameButSequencer_exec {s t : State} (h : SameButSequencer s t) (hs : Ready s) (i : Instr) :
    ∃ s' t', exec i s = .next s' ∧ exec i t = .next t' ∧ SameButSequencer s' t' := by
  have ht := h.ready hs
  cases i with
  | wr addr d =>
    exact ⟨_, _, exec_wr_of_ready hs addr d, exec_wr_of_ready ht addr d, sameButSequencer_memWrite h hs addr d⟩
  | rd addr => exact ⟨_, _, exec_rd_of_ready hs addr, exec_rd_of_ready ht addr, sameButSequencer_answerRead h addr⟩
  | mul => exact ⟨_, _, exec_mul_of_ready hs, exec_mul_of_ready ht, sameButSequencer_runMul h hs.2.1⟩
  | add => exact ⟨_, _, exec_add_of_ready hs, exec_add_of_ready ht, sameButSequencer_runAdd h hs⟩

/-- A reset leaves nothing of the difference. -/
theorem sameButSequencer_resetEvent {s t : State} (h : SameButSequencer s t) :
    SameButSequencer (resetEvent s) (resetEvent t) := by
  obtain ⟨-, i, j, a, c, k, cy, rfl⟩ := sameButSequencer_iff.mp h
  exact ⟨rfl, rfl⟩

/-- One step serves the same event in both blocks and keeps them alike. -/
theorem sameButSequencer_step {s t : State} (h : SameButSequencer s t) (hs : Ready s) :
    ∃ s' t', step s = .next s' ∧ step t = .next t' ∧ SameButSequencer s' t' := by
  have hidle : s.ph = .idle := h.1
  have hidle' : t.ph = .idle := (h.ready hs).2.2
  have hscript : t.script = s.script := by rw [h.2]
  match he : s.script with
  | [] => exact ⟨s, t, step_of_nil hidle he, step_of_nil hidle' (hscript.trans he), h⟩
  | .request req :: rest =>
    have hrest : Ready { s with script := rest } := hs
    rw [step_of_request hidle he, step_of_request hidle' (hscript.trans he)]
    exact sameButSequencer_exec (h.with_script rest) hrest _
  | .reset :: rest =>
    exact ⟨_, _, step_of_reset he, step_of_reset (hscript.trans he), sameButSequencer_resetEvent (h.with_script rest)⟩
  | .resetDuring cw n :: rest =>
    exact ⟨_, _, step_of_resetDuring hidle he, step_of_resetDuring hidle' (hscript.trans he),
      sameButSequencer_resetEvent (h.with_script rest)⟩

theorem sameButSequencer_run (n : Nat) {s t : State} (h : SameButSequencer s t) (hs : Ready s) :
    ∃ s' t', run n s = .next s' ∧ run n t = .next t' ∧ SameButSequencer s' t' := by
  induction n generalizing s t with
  | zero => exact ⟨s, t, rfl, rfl, h⟩
  | succ n ih =>
    obtain ⟨s', t', hstep, hstep', h'⟩ := sameButSequencer_step h hs
    rw [run_succ_of_step n hstep, run_succ_of_step n hstep']
    exact ih h' (step_ready hs hstep)

/-- Settles O44: by induction on the steps, each of which keeps the two blocks alike. -/
theorem sequencerLeftoversAreInvisible : Obligations.SequencerLeftoversAreInvisible :=
  fun n _ _ hinv h => sameButSequencer_run n h hinv.1

/-! ### `FILL` and `DUMP` (R79) -/

/-- `u` is `s` after the words `ds` were stored in `b` from index `n` on. -/
def StoredFrom (b : Buf) (n : Nat) (ds : List Limb) (s u : State) : Prop :=
  u.buf b = (s.buf b).take n ++ ds ++ (s.buf b).drop (n + ds.length) ∧
    (∀ b', b' ≠ b → u.buf b' = s.buf b') ∧
    u = { s with A := u.A, B := u.B, R := u.R, X := u.X, Y := u.Y, script := [] }

/-- The buffers do not see what is the host's. -/
theorem buf_with_host_fields (s : State) (script : List HostEvent) (rdata : List Limb) (b : Buf) :
    { s with script := script, rdata := rdata }.buf b = s.buf b := by
  cases b <;> rfl

/-- Words stored from `n + 1` on after one stored at `n` are words stored from `n` on. -/
theorem storedFrom_cons {b : Buf} {n : Nat} {d : Limb} {ds : List Limb} {s u : State} {rest : List HostEvent}
    (hn : n < (s.buf b).length) (h : StoredFrom b (n + 1) ds ({ s with script := rest }.setLimb b n d) u) :
    StoredFrom b n (d :: ds) s u := by
  obtain ⟨hbuf, hother, hframe⟩ := h
  refine ⟨?_, fun b' hb' => ?_, ?_⟩
  · have htake : ((s.buf b).set n d).take (n + 1) = (s.buf b).take n ++ [d] := by
      rw [List.take_succ_eq_append_getElem (by simpa), List.take_set_of_le le_rfl, List.getElem_set_self]
    have hdrop : ((s.buf b).set n d).drop (n + 1 + ds.length) = (s.buf b).drop (n + (d :: ds).length) := by
      rw [List.drop_set_of_lt (by omega), List.length_cons]; congr 1; omega
    rw [hbuf, buf_setLimb_self, buf_with_host_fields, htake, hdrop, List.append_assoc _ [d], List.singleton_append]
  · rw [hother b' hb', buf_setLimb_of_ne hb', buf_with_host_fields]
  · rw [hframe]; cases b <;> rfl

theorem run_fillFrom {b : Buf} (hb : b ≠ .R) {n : Nat} {vs : List Nat} {s : State} (h : Ready s)
    (hlen : n + vs.length ≤ bufLen s.cfg b) (hs : s.script = fillFrom b n vs) :
    ∃ u, run vs.length s = .next u ∧ StoredFrom b n (vs.map (BitVec.ofNat 64)) s u := by
  induction vs generalizing n s with
  | nil =>
    have hnil : s.script = [] := hs
    exact ⟨s, rfl, by simp, fun _ _ => rfl, by rw [← hnil]⟩
  | cons v vs ih =>
    rw [List.length_cons] at hlen
    have hn : n < bufLen s.cfg b := by omega
    have hrest : Ready { s with script := fillFrom b (n + 1) vs } := h
    have hstep := (step_of_encode h (.wr (limbAddr b n) (BitVec.ofNat 64 v)) hs).trans (exec_wr_limbAddr hrest hb hn _)
    have hlen' : n + 1 + vs.length ≤ bufLen s.cfg b := by omega
    obtain ⟨u, hrun, hu⟩ := ih (setLimb_ready hrest b n (BitVec.ofNat 64 v)) (by rwa [setLimb_cfg]) (setLimb_script ..)
    refine ⟨u, (run_succ_of_step _ hstep).trans hrun, storedFrom_cons ?_ hu⟩
    rwa [length_buf h.2.1]

/-- The block after it answered `v`, with `rest` still scripted. -/
def answered (v : Limb) (rest : List HostEvent) (s : State) : State :=
  { s with script := rest, rdata := s.rdata ++ [v] }

theorem buf_answered (v : Limb) (rest : List HostEvent) (s : State) (b : Buf) : (answered v rest s).buf b = s.buf b :=
  buf_with_host_fields ..

/-- A step that serves an `RD` of a limb answers the limb. -/
theorem step_of_readEvent {s : State} (h : Ready s) {b : Buf} {n : Nat} (hn : n < bufLen s.cfg b)
    {rest : List HostEvent} (hs : s.script = readEvent (limbAddr b n) :: rest) :
    step s = .next (answered (readLimb (s.buf b) n) rest s) := by
  have hrest : Ready { s with script := rest } := h
  rw [step_of_encode h (.rd (limbAddr b n)) hs, exec_rd_limbAddr hrest hn, buf_with_host_fields]
  rfl

/-- Reading a buffer from index `n` to its end answers its limbs from there on, in order. -/
theorem run_dumpFrom {b : Buf} {n m : Nat} {s : State} (h : Ready s) (hlen : n + m = bufLen s.cfg b)
    (hs : s.script = dumpFrom b n m) :
    run m s = .next { s with script := [], rdata := s.rdata ++ (s.buf b).drop n } := by
  induction m generalizing n s with
  | zero =>
    have hend : (s.buf b).length ≤ n := by rw [length_buf h.2.1]; omega
    have hnil : s.script = [] := hs
    rw [List.drop_of_length_le hend, List.append_nil, ← hnil]; rfl
  | succ m ih =>
    have hn : n < bufLen s.cfg b := by omega
    have hnext : Ready (answered (readLimb (s.buf b) n) (dumpFrom b (n + 1) m) s) := h
    have hlen' : n + 1 + m = bufLen s.cfg b := by omega
    have hlimbs := drop_eq_readLimb_cons (d := s.buf b) (t := n) (by rwa [length_buf h.2.1])
    rw [run_succ_of_step m (step_of_readEvent h hn hs), ih hnext hlen' rfl, buf_answered, hlimbs]
    simp [answered]

/-- Settles O45: by induction on the values written and on the limbs still to read. -/
theorem fillAndDump : Obligations.FillAndDump := by
  refine ⟨fun s b vs h hb hlen hs => ?_, fun s b h hs => ?_⟩
  · obtain ⟨u, hrun, hbuf, hother, hframe⟩ := run_fillFrom hb h (by rwa [Nat.zero_add]) hs
    exact ⟨u, hrun, by simpa using hbuf, hother, hframe⟩
  · exact run_dumpFrom h (Nat.zero_add _) hs

end Sys2Proof.Machine
